-- ==== Sys2Proof/Word.lean ====
section
/-! DEFINITION. The bit vectors of the engine (spec 00_scope.md R1, R2) and the shape of the S-box table (10_state.md R20).

A vector of width W and the unsigned integer with the same binary digits are the same value (R2), so every vector is a
`BitVec`. `v[i]` of the spec (hardware numbering, least significant first) is `v.getLsbD i`; `v{i}` (source numbering, most
significant first) is `v.getMsbD i`; `a || b` is `a ++ b` (R4); `a ^ b` is `a ^^^ b` (R5). -/

namespace Sys2Proof

/-- A command word (30_encoding.md R70). -/
abbrev Word := BitVec 32

/-- An output register, or an operand field of the command word (10_state.md R27, 30_encoding.md R70). -/
abbrev Byte := BitVec 8

/-- A half of a block or of a key, an S-box entry (00_scope.md R3, 10_state.md R20). -/
abbrev Nibble := BitVec 4

/-- A subkey, an expanded value, an XOR result (10_state.md R24, R26). -/
abbrev Sextet := BitVec 6

/-- An S-box row number (10_state.md R26). -/
abbrev RowNo := BitVec 2

/-- The number of an output register, 0 to 63 (10_state.md R27). -/
abbrev RegNo := BitVec 6

/-- The S-box: 4 rows by 16 columns of 4-bit values (10_state.md R20). -/
abbrev SBox := Vector (Vector Nibble 16) 4

end Sys2Proof
end

