-- ==== Sys2Proof/Syntax.lean ====
section
/-! DEFINITION. The twelve commands (30_encoding.md R71, R76), one constructor per row of spec/opcode_table.json. An operand
is the 8-bit field of the command word as it stands (30_encoding.md R74): the width check is no part of decoding (R76). -/

namespace Sys2Proof

/-- A command of the TDCE command set (30_encoding.md R76). -/
inductive Instr where
  /-- EXPAND a (41_bit_transforms.md R101). -/
  | expand (a : Byte)
  /-- SUBST a (41_bit_transforms.md R103). -/
  | subst (a : Byte)
  /-- PERMUTE a (41_bit_transforms.md R105). -/
  | permute (a : Byte)
  /-- ROTL a, s (42_key_schedule.md R121). -/
  | rotl (a s : Byte)
  /-- COMPRESS kl, kr (42_key_schedule.md R123). -/
  | compress (kl kr : Byte)
  /-- GENKEYS key (42_key_schedule.md R125). -/
  | genkeys (key : Byte)
  /-- FROUND r, k (43_round_function.md R142). -/
  | fround (r k : Byte)
  /-- FROUND.T r, k (43_round_function.md R143). -/
  | froundT (r k : Byte)
  /-- ENCRYPT p, key (44_encrypt_decrypt.md R152). -/
  | encrypt (p key : Byte)
  /-- ENCRYPT.T p, key (44_encrypt_decrypt.md R153). -/
  | encryptT (p key : Byte)
  /-- DECRYPT c, key (44_encrypt_decrypt.md R155). -/
  | decrypt (c key : Byte)
  /-- DECRYPT.T c, key (44_encrypt_decrypt.md R156). -/
  | decryptT (c key : Byte)
  deriving DecidableEq, Repr

end Sys2Proof
end

