-- ==== Sys2Proof/WellFormed.lean ====
section
/-! DEFINITION. When the operands of a command have their declared widths (the table of 60_exceptions.md R182, column
"InvalidWidth when", read the other way round). An ill-formed command is still a legal word (30_encoding.md R76): it executes
and ends with `InvalidWidth`. The machine makes its own check (Machine/Operands.lean), from 30_encoding.md R75. -/

namespace Sys2Proof

/-- Every operand fits the width its command declares for it (60_exceptions.md R182). -/
def Instr.wellFormed : Instr → Bool
  | .expand a => decide (a.toNat < 0x10)
  | .subst a => decide (a.toNat < 0x40)
  | .permute a => decide (a.toNat < 0x10)
  | .rotl a _ => decide (a.toNat < 0x10)
  | .compress kl kr => decide (kl.toNat < 0x10) && decide (kr.toNat < 0x10)
  | .genkeys _ => true
  | .fround r k => decide (r.toNat < 0x10) && decide (k.toNat < 0x40)
  | .froundT r k => decide (r.toNat < 0x10) && decide (k.toNat < 0x40)
  | .encrypt _ _ => true
  | .encryptT _ _ => true
  | .decrypt _ _ => true
  | .decryptT _ _ => true

end Sys2Proof
end

