-- ==== Sys2Proof/Decode.lean ====
section
/-! DEFINITION. The command word (30_encoding.md R70 to R78): its fields, the decoder, total on all 2^32 words, the encoder,
and the opcode table with its match and mask words. -/

namespace Sys2Proof

/-- `OPC`, bits 31:28 (30_encoding.md R70). -/
def fieldOpc (w : Word) : BitVec 4 := w.extractLsb' 28 4

/-- `T`, bit 27 (30_encoding.md R70). -/
def fieldT (w : Word) : Bool := w.getLsbD 27

/-- `Z`, bits 26:16, reserved (30_encoding.md R70, R73). -/
def fieldZ (w : Word) : BitVec 11 := w.extractLsb' 16 11

/-- `B`, bits 15:8 (30_encoding.md R70, R74). -/
def fieldB (w : Word) : Byte := w.extractLsb' 8 8

/-- `A`, bits 7:0 (30_encoding.md R70, R74). -/
def fieldA (w : Word) : Byte := w.extractLsb' 0 8

/-- Why a word is no command: the four causes of 60_exceptions.md R181. The engine reports one code for all of them; which
name is given when several apply can not be observed (log entry 6, DESIGN CHOICE). -/
inductive DecodeError where
  /-- `OPC` is 0x0 or 0xA to 0xF (30_encoding.md R77). -/
  | reservedOpcode
  /-- A bit of `Z` is set (30_encoding.md R73). -/
  | reservedBits
  /-- `T = 1` on a command that has no traced form (30_encoding.md R72). -/
  | noTracedForm
  /-- `B` is not zero on a one-operand command (30_encoding.md R74). -/
  | unusedOperand
  deriving DecidableEq, Repr

/-- A one-operand command without a traced form: `T` and `B` must be zero (30_encoding.md R72, R74). -/
def decodeOne (t : Bool) (b : Byte) (i : Instr) : Except DecodeError Instr :=
  if t then .error .noTracedForm else if b = 0#8 then .ok i else .error .unusedOperand

/-- A two-operand command without a traced form: `T` must be zero (30_encoding.md R72). -/
def decodeTwo (t : Bool) (i : Instr) : Except DecodeError Instr :=
  if t then .error .noTracedForm else .ok i

/-- A command that has a plain and a traced form, selected by `T` (30_encoding.md R72). -/
def decodeTraced (t : Bool) (plain traced : Instr) : Except DecodeError Instr :=
  .ok (if t then traced else plain)

/-- The opcode map (30_encoding.md R71), once `Z` is zero. -/
def decodeOpc (opc : Nat) (t : Bool) (b a : Byte) : Except DecodeError Instr :=
  match opc with
  | 0x1 => decodeOne t b (.expand a)
  | 0x2 => decodeOne t b (.subst a)
  | 0x3 => decodeOne t b (.permute a)
  | 0x4 => decodeTwo t (.rotl a b)
  | 0x5 => decodeTwo t (.compress a b)
  | 0x6 => decodeOne t b (.genkeys a)
  | 0x7 => decodeTraced t (.fround a b) (.froundT a b)
  | 0x8 => decodeTraced t (.encrypt a b) (.encryptT a b)
  | 0x9 => decodeTraced t (.decrypt a b) (.decryptT a b)
  | _ => .error .reservedOpcode

/-- Decoding, total on every word (30_encoding.md R76, R77). It looks at `A` never and at `B` only to require zero. -/
def decode (w : Word) : Except DecodeError Instr :=
  if fieldZ w = 0#11 then decodeOpc (fieldOpc w).toNat (fieldT w) (fieldB w) (fieldA w) else .error .reservedBits

/-- The opcode of a command (30_encoding.md R71). -/
def Instr.opc : Instr → BitVec 4
  | .expand _ => 0x1
  | .subst _ => 0x2
  | .permute _ => 0x3
  | .rotl _ _ => 0x4
  | .compress _ _ => 0x5
  | .genkeys _ => 0x6
  | .fround _ _ => 0x7
  | .froundT _ _ => 0x7
  | .encrypt _ _ => 0x8
  | .encryptT _ _ => 0x8
  | .decrypt _ _ => 0x9
  | .decryptT _ _ => 0x9

/-- The `T` bit of a command (30_encoding.md R72). -/
def Instr.traced : Instr → Bool
  | .expand _ => false
  | .subst _ => false
  | .permute _ => false
  | .rotl _ _ => false
  | .compress _ _ => false
  | .genkeys _ => false
  | .fround _ _ => false
  | .froundT _ _ => true
  | .encrypt _ _ => false
  | .encryptT _ _ => true
  | .decrypt _ _ => false
  | .decryptT _ _ => true

/-- The `A` field of a command (30_encoding.md R74). -/
def Instr.operandA : Instr → Byte
  | .expand a => a
  | .subst a => a
  | .permute a => a
  | .rotl a _ => a
  | .compress kl _ => kl
  | .genkeys key => key
  | .fround r _ => r
  | .froundT r _ => r
  | .encrypt p _ => p
  | .encryptT p _ => p
  | .decrypt c _ => c
  | .decryptT c _ => c

/-- The `B` field of a command, zero for a one-operand command (30_encoding.md R74). -/
def Instr.operandB : Instr → Byte
  | .expand _ => 0
  | .subst _ => 0
  | .permute _ => 0
  | .rotl _ s => s
  | .compress _ kr => kr
  | .genkeys _ => 0
  | .fround _ k => k
  | .froundT _ k => k
  | .encrypt _ key => key
  | .encryptT _ key => key
  | .decrypt _ key => key
  | .decryptT _ key => key

/-- A command word from its fields, `w = OPC || T || Z || B || A` with `Z` zero (30_encoding.md R70, R73). -/
def assembleWord (opc : BitVec 4) (t : Bool) (b a : Byte) : Word := opc ++ BitVec.ofBool t ++ 0#11 ++ b ++ a

/-- The word of a command (30_encoding.md R70, R76). -/
def encode (i : Instr) : Word := assembleWord i.opc i.traced i.operandB i.operandA

/-- A row of the table of 30_encoding.md R76: a word is the command of the row if and only if `(w AND mask) = pattern`. -/
structure OpcodeRow where
  mnemonic : String
  pattern : Word
  mask : Word
  deriving DecidableEq, Repr

/-- The table of 30_encoding.md R76. -/
def opcodeRows : List OpcodeRow := [
  ⟨"EXPAND", 0x10000000, 0xFFFFFF00⟩,
  ⟨"SUBST", 0x20000000, 0xFFFFFF00⟩,
  ⟨"PERMUTE", 0x30000000, 0xFFFFFF00⟩,
  ⟨"ROTL", 0x40000000, 0xFFFF0000⟩,
  ⟨"COMPRESS", 0x50000000, 0xFFFF0000⟩,
  ⟨"GENKEYS", 0x60000000, 0xFFFFFF00⟩,
  ⟨"FROUND", 0x70000000, 0xFFFF0000⟩,
  ⟨"FROUND.T", 0x78000000, 0xFFFF0000⟩,
  ⟨"ENCRYPT", 0x80000000, 0xFFFF0000⟩,
  ⟨"ENCRYPT.T", 0x88000000, 0xFFFF0000⟩,
  ⟨"DECRYPT", 0x90000000, 0xFFFF0000⟩,
  ⟨"DECRYPT.T", 0x98000000, 0xFFFF0000⟩]

/-- The mnemonic of a command (30_encoding.md R76, R79). -/
def Instr.mnemonic : Instr → String
  | .expand _ => "EXPAND"
  | .subst _ => "SUBST"
  | .permute _ => "PERMUTE"
  | .rotl _ _ => "ROTL"
  | .compress _ _ => "COMPRESS"
  | .genkeys _ => "GENKEYS"
  | .fround _ _ => "FROUND"
  | .froundT _ _ => "FROUND.T"
  | .encrypt _ _ => "ENCRYPT"
  | .encryptT _ _ => "ENCRYPT.T"
  | .decrypt _ _ => "DECRYPT"
  | .decryptT _ _ => "DECRYPT.T"

/-- The word `w` names, of `nbits` bits: the bits above `nbits` are zero. A number that does not fit the one 32-bit word of a
command (30_encoding.md R78) is no command word (log entry 11). -/
def tableWord (nbits w : Nat) : Option Word :=
  let v := w % 2 ^ nbits
  if v < 2 ^ 32 then some (BitVec.ofNat 32 v) else none

/-- The command the decoder reads from a word of the opcode table, numbered as the table numbers its bits. -/
def decodeTableWord (nbits w : Nat) : Option Instr :=
  match tableWord nbits w with
  | none => none
  | some v => (decode v).toOption

end Sys2Proof
end

