-- ==== Sys2Proof/Machine/Flags.lean ====
section
/-! DEFINITION. The STATUS register (10_state.md R28): the values the engine writes to it and its fields. The engine has no
other flag (10_state.md R35). -/

namespace Sys2Proof.Machine

/-- The two error kinds (60_exceptions.md R180, R181). -/
inductive ErrorKind where
  /-- An operand is longer than its declared width. -/
  | invalidWidth
  /-- The word is none of the twelve commands. -/
  | illegalCommand
  deriving DecidableEq, Repr

/-- The code of an error (60_exceptions.md R180, R181). -/
def ErrorKind.code : ErrorKind → BitVec 2
  | .invalidWidth => 1
  | .illegalCommand => 2

/-- STATUS from its fields, bits 7:5 zero (10_state.md R28). -/
def statusWord (ok err : Bool) (ecode : BitVec 2) (tv : Bool) : Byte :=
  0#3 ++ BitVec.ofBool tv ++ ecode ++ BitVec.ofBool err ++ BitVec.ofBool ok

/-- STATUS after a command that completed: OK = 1, TV = T (30_encoding.md R81 step 5). -/
def statusDone (traced : Bool) : Byte := statusWord true false 0 traced

/-- STATUS after a command that ended with an error: ERR = 1, ECODE the code (60_exceptions.md R186). -/
def statusError (e : ErrorKind) : Byte := statusWord false true e.code false

/-- The OK field, bit 0 (10_state.md R28). -/
def statusOk (st : Byte) : Bool := st.getLsbD 0

/-- The ERR field, bit 1 (10_state.md R28). -/
def statusErr (st : Byte) : Bool := st.getLsbD 1

/-- The ECODE field, bits 3:2 (10_state.md R28). -/
def statusEcode (st : Byte) : BitVec 2 := st.extractLsb' 2 2

/-- The TV field, bit 4 (10_state.md R28). -/
def statusTv (st : Byte) : Bool := st.getLsbD 4

end Sys2Proof.Machine
end

