-- ==== Sys2Proof/Machine/Operands.lean ====
section
/-! DEFINITION. Operands and results: the width check (00_scope.md R8, 30_encoding.md R75), the halves of a block or key
(00_scope.md R3), single bits (00_scope.md section 5.1) and the placement of a vector in an 8-bit register (30_encoding.md
R82). -/

namespace Sys2Proof.Machine

/-- The width check of 30_encoding.md R75: a field that holds `f < 2^W` is the W-bit vector `f[W-1:0]`, any other is longer
than W bits (`none`, the command ends with `InvalidWidth`). Nothing is ever truncated. -/
def acceptWidth (width : Nat) (f : Byte) : Option (BitVec width) :=
  if f.toNat < 2 ^ width then some (f.setWidth width) else none

/-- The width contract on a written vector of any length (00_scope.md R8): shorter is zero-extended on the left, longer is
rejected, nothing is truncated. -/
def acceptVector (width : Nat) {len : Nat} (v : BitVec len) : Option (BitVec width) :=
  if len ≤ width then some (v.setWidth width) else none

/-- `v[i]` as a vector of one bit (00_scope.md section 5.1). -/
def bit {n : Nat} (v : BitVec n) (i : Nat) : BitVec 1 := v.extractLsb' i 1

/-- The high half `v[7:4]` (00_scope.md R3). -/
def highHalf (v : Byte) : Nibble := v.extractLsb' 4 4

/-- The low half `v[3:0]` (00_scope.md R3). -/
def lowHalf (v : Byte) : Nibble := v.extractLsb' 0 4

/-- `zext_8`: a vector right-aligned in an 8-bit register, zeros above (30_encoding.md R82, 10_state.md R27). -/
def place {n : Nat} (v : BitVec n) : Byte := v.setWidth 8

end Sys2Proof.Machine
end

