-- ==== Sys2Proof/Machine/Rom.lean ====
section
/-! DEFINITION. The S-box ROM: its supplied contents (10_state.md R22), how one entry is addressed and read (10_state.md R20,
20_memory.md R51), and the entry every table must have (10_state.md R21). -/

namespace Sys2Proof.Machine

/-- Row 0 of the table of 10_state.md R22. PRESUMED (log entry 4): the spec marks the contents as general knowledge. -/
def sboxRow0 : Vector Nibble 16 := #v[0xE, 0x4, 0xD, 0x1, 0x2, 0xF, 0xB, 0x8, 0x3, 0xA, 0x6, 0xC, 0x5, 0x9, 0x0, 0x7]

/-- Row 1 of the table of 10_state.md R22. -/
def sboxRow1 : Vector Nibble 16 := #v[0x0, 0xF, 0x7, 0x4, 0xE, 0x2, 0xD, 0x1, 0xA, 0x6, 0xC, 0xB, 0x9, 0x5, 0x3, 0x8]

/-- Row 2 of the table of 10_state.md R22. -/
def sboxRow2 : Vector Nibble 16 := #v[0x4, 0x1, 0xE, 0x8, 0xD, 0x6, 0x2, 0xB, 0xF, 0xC, 0x9, 0x7, 0x3, 0xA, 0x5, 0x0]

/-- Row 3 of the table of 10_state.md R22. -/
def sboxRow3 : Vector Nibble 16 := #v[0xF, 0xC, 0x8, 0x2, 0x4, 0x9, 0x1, 0x7, 0x5, 0xB, 0x3, 0xE, 0xA, 0x0, 0x6, 0xD]

/-- The S-box contents the spec supplies (10_state.md R22). -/
def sboxTable : SBox := #v[sboxRow0, sboxRow1, sboxRow2, sboxRow3]

/-- `SBOX[row][col]` (10_state.md R20): a ROM read, 4 bits, no side effect (20_memory.md R51). -/
def romEntry (t : SBox) (row : RowNo) (col : Nibble) : Nibble :=
  (t[row.toNat]'row.isLt)[col.toNat]'col.isLt

/-- The flat ROM address `row*16 + col` (20_memory.md R51). -/
def flatAddress (row : RowNo) (col : Nibble) : BitVec 6 := row ++ col

/-- A read of the ROM by flat address: the two high bits are the row, the four low bits the column (20_memory.md R51). -/
def romFlat (t : SBox) (addr : BitVec 6) : Nibble :=
  romEntry t (addr.extractLsb' 4 2) (addr.extractLsb' 0 4)

/-- "Any table a model uses for `SBOX` must have this entry": `SBOX[3][2] = 0x8` (10_state.md R21). -/
def hasStatedEntry (t : SBox) : Bool := romEntry t 3#2 2#4 == 0x8#4

end Sys2Proof.Machine
end

