-- ==== Sys2Proof/Config.lean ====
section
/-! DEFINITION. What is fixed for one machine: the parameters of 00_scope.md section 4. The open parameters of 00_scope.md
section 4 and 92_eei_decisions.md (D19, D20, D21, D23) are constants with no body: nothing can evaluate them, and no rule and
no definition of the engine depends on them (log entries 7 and 8). -/

namespace Sys2Proof.Config

/-- The parameter `SBOX` (10_state.md R22, D1). The machine reads the table from `State.rom`, never from here: this value only
fills the ROM of the reset state, so every statement over all states holds for every table. PRESUMED (log entry 4). -/
def sbox : SBox := Sys2Proof.Machine.sboxTable

/-- The byte order of a platform bus, `BUS_ENDIAN` (20_memory.md R56, D19). -/
inductive Endian where
  | little
  | big
  deriving DecidableEq, Repr, Inhabited

/-- `BASE`: where a platform places the engine on its bus (20_memory.md R56, D19). -/
opaque base : Nat

/-- `BUS_WIDTH`: how wide the platform bus is (20_memory.md R56, D19). -/
opaque busWidth : Nat

/-- `BUS_ENDIAN`: the byte order of a command word split over narrower transfers (20_memory.md R56, D19). -/
opaque busEndian : Endian

/-- `ARBITRATION`: which host the platform serves at its n-th turn (20_memory.md R60, D20). -/
opaque arbitration : Nat → Nat

/-- `LATENCY`: time from a command to its results (70_reset_and_hazards.md R216, D21). -/
opaque latency : Nat

/-- How many engine instances a platform has beyond the first (20_memory.md R64, D23). -/
opaque furtherEngines : Nat

/-- `NUM_ENGINES`, at least 1 (20_memory.md R64, D23). -/
def numEngines : Nat := furtherEngines + 1

end Sys2Proof.Config
end

