-- ==== Sys2Proof/Machine/State.lean ====
section
/-! DEFINITION. The state of one engine instance: the S-box ROM and the output register file, the two pieces of state that
outlive a command (10_state.md section 1), and the host side of the command port (the operations that have reached the
instance, the values reads have returned). Also the reasons a step can stop. Plain data throughout. -/

namespace Sys2Proof.Machine

/-- A round of the key schedule or a round step, 1 to 3 (00_scope.md R9). -/
inductive Round where
  | r1
  | r2
  | r3
  deriving DecidableEq, Repr

/-- The three key-schedule registers of one schedule round (10_state.md R27, R30). -/
structure KeyRegs where
  kl : Byte
  kr : Byte
  k : Byte
  deriving DecidableEq, Repr

/-- The eight registers of one step record (10_state.md R27, R31). -/
structure StepRegs where
  e : Byte
  x : Byte
  row : Byte
  col : Byte
  sv : Byte
  p : Byte
  l : Byte
  r : Byte
  deriving DecidableEq, Repr

/-- The output register file: the 35 assigned registers, 8 bits each (10_state.md R27). A reserved number has no storage
(10_state.md R32; log entry 9). -/
structure OutFile where
  status : Byte
  res : Byte
  key1 : KeyRegs
  key2 : KeyRegs
  key3 : KeyRegs
  step1 : StepRegs
  step2 : StepRegs
  step3 : StepRegs
  deriving DecidableEq, Repr

/-- The assigned output registers by name (10_state.md R27): `kl i`, `kr i`, `k i` of schedule round i, `e j` to `r j` of step
record j. -/
inductive OutReg where
  | status
  | res
  | kl (i : Round)
  | kr (i : Round)
  | k (i : Round)
  | e (j : Round)
  | x (j : Round)
  | row (j : Round)
  | col (j : Round)
  | sv (j : Round)
  | p (j : Round)
  | l (j : Round)
  | r (j : Round)
  deriving DecidableEq, Repr

/-- What can reach an engine instance: the operations of 20_memory.md R50 and R58, the platform's loading of the ROM
(10_state.md R20, 70_reset_and_hazards.md R212), and the bus accesses that are no host operation
(93_implementation_defined.md U18). -/
inductive Event where
  /-- `HostCommand(w)`. -/
  | command (w : Word)
  /-- `HostRead(n)`. A number above 0x3F is no register number (93_implementation_defined.md U17). -/
  | read (n : Nat)
  /-- `RESET` (70_reset_and_hazards.md R210). -/
  | reset
  /-- The platform fills the ROM (10_state.md R20, 70_reset_and_hazards.md R212; log entry 5). -/
  | loadRom (t : SBox)
  /-- A host write to an output register: no host operation (93_implementation_defined.md U18). -/
  | writeRegister (n : Nat) (v : Byte)
  /-- A host read of the command port: no host operation (93_implementation_defined.md U18). -/
  | readPort
  deriving DecidableEq, Repr

/-- The state of one engine instance. -/
structure State where
  /-- The S-box ROM (10_state.md R20); `none` before the platform has loaded it (93_implementation_defined.md U22). -/
  rom : Option SBox
  /-- The output register file (10_state.md R27). -/
  out : OutFile
  /-- The operations that have reached the instance and are not yet taken, in arrival order (20_memory.md R58). The model's
  own field (log entry 1). -/
  pending : List Event
  /-- The values `HostRead` has returned to the host, newest first. The model's own field (log entry 2): no operation reads
  it. -/
  replies : List Byte
  deriving DecidableEq, Repr

/-- There is no fault that stops the engine: both its errors are reported in STATUS and the next command runs
(60_exceptions.md R186, R187), and no behaviour is stuck (93_implementation_defined.md). So no constructor, and nobody raises
one. -/
inductive Fault where
  deriving DecidableEq, Repr

/-- Why the model rejects an input. Each is safe: the model stops where the spec defines nothing. -/
inductive Refusal where
  /-- An arm of `exec` without a meaning. No arm is left: nobody raises it. Safe. -/
  | notModelled (mnemonic : String)
  /-- Raised by a command that arrives before the ROM holds `SBOX` (93_implementation_defined.md U22: "the engine accepts no
  command before the ROM holds `SBOX`"). Safe. -/
  | romNotLoaded
  /-- Raised by a second loading of the ROM, which is "initialised once" (10_state.md R20; log entry 5). Safe. -/
  | romAlreadyLoaded
  /-- Raised by loading a table without `SBOX[3][2] = 0x8`, which "any table a model uses for `SBOX` must have" (10_state.md
  R21; log entry 5). Safe. -/
  | romLacksStatedEntry
  /-- Raised by a read of a register number above 0x3F (93_implementation_defined.md U17). Safe. -/
  | noSuchRegister
  /-- Raised by a host write to an output register (93_implementation_defined.md U18). Safe. -/
  | registerWrite
  /-- Raised by a host read of the command port (93_implementation_defined.md U18). Safe. -/
  | commandPortRead
  /-- Raised by a platform turn for an instance that does not exist (Machine/Platform.lean; log entry 8). Safe. -/
  | noSuchEngine
  deriving DecidableEq, Repr

/-- What one step of one instance answers. -/
abbrev StepResult := Host.Outcome State Fault Refusal

/-- Three key-schedule registers at 0. -/
def KeyRegs.zero : KeyRegs := ⟨0, 0, 0⟩

/-- A step record at 0. -/
def StepRegs.zero : StepRegs := ⟨0, 0, 0, 0, 0, 0, 0, 0⟩

/-- Every output register at 0: after reset (10_state.md R39), and after step 1 of every command (30_encoding.md R81). -/
def OutFile.cleared : OutFile :=
  ⟨0, 0, KeyRegs.zero, KeyRegs.zero, KeyRegs.zero, StepRegs.zero, StepRegs.zero, StepRegs.zero⟩

/-- The state with another output register file. -/
def State.setOut (s : State) (o : OutFile) : State := { s with out := o }

/-- The state with the ROM holding a table. -/
def State.setRom (s : State) (t : SBox) : State := { s with rom := some t }

/-- The state with another list of waiting operations. -/
def State.setPending (s : State) (q : List Event) : State := { s with pending := q }

/-- The state after a read has returned a value. -/
def State.addReply (s : State) (v : Byte) : State := { s with replies := v :: s.replies }

/-- The machine right after reset (10_state.md R39): every output register 0, the ROM holding `SBOX`. No operation waits and
no read has been answered (DESIGN CHOICE, log entries 1 and 2). -/
def State.reset : State := ⟨some Sys2Proof.Config.sbox, OutFile.cleared, [], []⟩

end Sys2Proof.Machine
end

