-- ==== Sys2Proof/Machine/Registers.lean ====
section
/-! DEFINITION. The output register file by name and by number (10_state.md R27, R30, R31, R32, section 4). The one place that
reads or writes an output register. -/

namespace Sys2Proof.Machine

/-- The index of a round, 0 to 2, for the register number arithmetic of 10_state.md section 4. -/
def Round.index : Round → Nat
  | .r1 => 0
  | .r2 => 1
  | .r3 => 2

/-- The number of a key-schedule register: `0x04 + 4*(i-1)` and the field (10_state.md section 4). -/
def keyNumber (i : Round) (field : Nat) : RegNo := BitVec.ofNat 6 (0x04 + 4 * i.index + field)

/-- The number of a step-record register: `0x10 + 8*(j-1)` and the field (10_state.md section 4). -/
def stepNumber (j : Round) (field : Nat) : RegNo := BitVec.ofNat 6 (0x10 + 8 * j.index + field)

/-- The number of a named register (10_state.md R27 and its "Register number arithmetic"). -/
def OutReg.number : OutReg → RegNo
  | .status => 0x00
  | .res => 0x01
  | .kl i => keyNumber i 0
  | .kr i => keyNumber i 1
  | .k i => keyNumber i 2
  | .e j => stepNumber j 0
  | .x j => stepNumber j 1
  | .row j => stepNumber j 2
  | .col j => stepNumber j 3
  | .sv j => stepNumber j 4
  | .p j => stepNumber j 5
  | .l j => stepNumber j 6
  | .r j => stepNumber j 7

/-- The register a number names, none for a reserved number: the table of 10_state.md R27, row by row. -/
def regOfNumber (n : RegNo) : Option OutReg :=
  match n.toNat with
  | 0x00 => some .status
  | 0x01 => some .res
  | 0x04 => some (.kl .r1)
  | 0x05 => some (.kr .r1)
  | 0x06 => some (.k .r1)
  | 0x08 => some (.kl .r2)
  | 0x09 => some (.kr .r2)
  | 0x0A => some (.k .r2)
  | 0x0C => some (.kl .r3)
  | 0x0D => some (.kr .r3)
  | 0x0E => some (.k .r3)
  | 0x10 => some (.e .r1)
  | 0x11 => some (.x .r1)
  | 0x12 => some (.row .r1)
  | 0x13 => some (.col .r1)
  | 0x14 => some (.sv .r1)
  | 0x15 => some (.p .r1)
  | 0x16 => some (.l .r1)
  | 0x17 => some (.r .r1)
  | 0x18 => some (.e .r2)
  | 0x19 => some (.x .r2)
  | 0x1A => some (.row .r2)
  | 0x1B => some (.col .r2)
  | 0x1C => some (.sv .r2)
  | 0x1D => some (.p .r2)
  | 0x1E => some (.l .r2)
  | 0x1F => some (.r .r2)
  | 0x20 => some (.e .r3)
  | 0x21 => some (.x .r3)
  | 0x22 => some (.row .r3)
  | 0x23 => some (.col .r3)
  | 0x24 => some (.sv .r3)
  | 0x25 => some (.p .r3)
  | 0x26 => some (.l .r3)
  | 0x27 => some (.r .r3)
  | _ => none

/-- The width of the content of a register (10_state.md R27, column "content width"). -/
def OutReg.contentWidth : OutReg → Nat
  | .status => 5
  | .res => 8
  | .kl _ => 4
  | .kr _ => 4
  | .k _ => 6
  | .e _ => 6
  | .x _ => 6
  | .row _ => 2
  | .col _ => 4
  | .sv _ => 4
  | .p _ => 4
  | .l _ => 4
  | .r _ => 4

/-- The key-schedule registers of round i. -/
def OutFile.keyRegs (o : OutFile) : Round → KeyRegs
  | .r1 => o.key1
  | .r2 => o.key2
  | .r3 => o.key3

/-- The step record of step j. -/
def OutFile.stepRegs (o : OutFile) : Round → StepRegs
  | .r1 => o.step1
  | .r2 => o.step2
  | .r3 => o.step3

/-- The file with other key-schedule registers of round i. -/
def OutFile.setKeyRegs (o : OutFile) (i : Round) (v : KeyRegs) : OutFile :=
  match i with
  | .r1 => { o with key1 := v }
  | .r2 => { o with key2 := v }
  | .r3 => { o with key3 := v }

/-- The file with another step record j. -/
def OutFile.setStepRegs (o : OutFile) (j : Round) (v : StepRegs) : OutFile :=
  match j with
  | .r1 => { o with step1 := v }
  | .r2 => { o with step2 := v }
  | .r3 => { o with step3 := v }

/-- `OUT.NAME`: the content of a named register (00_scope.md section 5.3). -/
def OutFile.get (o : OutFile) : OutReg → Byte
  | .status => o.status
  | .res => o.res
  | .kl i => (o.keyRegs i).kl
  | .kr i => (o.keyRegs i).kr
  | .k i => (o.keyRegs i).k
  | .e j => (o.stepRegs j).e
  | .x j => (o.stepRegs j).x
  | .row j => (o.stepRegs j).row
  | .col j => (o.stepRegs j).col
  | .sv j => (o.stepRegs j).sv
  | .p j => (o.stepRegs j).p
  | .l j => (o.stepRegs j).l
  | .r j => (o.stepRegs j).r

/-- `OUT.NAME <- v` (00_scope.md section 5.3). -/
def OutFile.write (o : OutFile) (reg : OutReg) (v : Byte) : OutFile :=
  match reg with
  | .status => { o with status := v }
  | .res => { o with res := v }
  | .kl i => o.setKeyRegs i { o.keyRegs i with kl := v }
  | .kr i => o.setKeyRegs i { o.keyRegs i with kr := v }
  | .k i => o.setKeyRegs i { o.keyRegs i with k := v }
  | .e j => o.setStepRegs j { o.stepRegs j with e := v }
  | .x j => o.setStepRegs j { o.stepRegs j with x := v }
  | .row j => o.setStepRegs j { o.stepRegs j with row := v }
  | .col j => o.setStepRegs j { o.stepRegs j with col := v }
  | .sv j => o.setStepRegs j { o.stepRegs j with sv := v }
  | .p j => o.setStepRegs j { o.stepRegs j with p := v }
  | .l j => o.setStepRegs j { o.stepRegs j with l := v }
  | .r j => o.setStepRegs j { o.stepRegs j with r := v }

/-- `OUT[n]`: what a read of register number n returns; a reserved number reads 0 at all times (10_state.md R32). -/
def OutFile.readNumber (o : OutFile) (n : RegNo) : Byte :=
  match regOfNumber n with
  | some reg => o.get reg
  | none => 0

end Sys2Proof.Machine
end

