-- ==== Sys2Proof/Machine/Ops.lean ====
section
/-! DEFINITION. The shared operations: the common execution rule (30_encoding.md R81), error entry (60_exceptions.md R186),
`HostRead` (20_memory.md R55), `RESET` (70_reset_and_hazards.md R210) and the loading of the ROM (10_state.md R20). -/

namespace Sys2Proof.Machine

/-- Error entry, the one operation for both errors (60_exceptions.md R186): every output register 0, STATUS the error. Nothing
is saved and nothing is to be returned from (60_exceptions.md R187). -/
def takeError (e : ErrorKind) (s : State) : State :=
  s.setOut (OutFile.cleared.write .status (statusError e))

/-- Step 5 of 30_encoding.md R81: the outputs stand in the register file, STATUS reports success. -/
def completeWith (traced : Bool) (o : OutFile) (s : State) : State :=
  s.setOut (o.write .status (statusDone traced))

/-- The common execution rule (30_encoding.md R81) for a legal word. `outputs` is the command's own part, from the operands
that passed the width check and from the S-box to the cleared register file with the command's outputs written; it is `none`
where an operand is too wide (step 3). Before the ROM holds `SBOX` the engine accepts no command
(93_implementation_defined.md U22). -/
def runCommand (traced : Bool) (outputs : Option (SBox → OutFile)) (s : State) : StepResult :=
  match s.rom with
  | none => .refused .romNotLoaded
  | some t =>
    match outputs with
    | none => .next (takeError .invalidWidth s)
    | some f => .next (completeWith traced (f t) s)

/-- An illegal word (30_encoding.md R77, R81 step 2): it executes as the error `IllegalCommand`. -/
def runIllegal (s : State) : StepResult :=
  match s.rom with
  | none => .refused .romNotLoaded
  | some _ => .next (takeError .illegalCommand s)

/-- The cleared register file with a result in RES (30_encoding.md R81 steps 1 and 4, R82). -/
def resultOnly {n : Nat} (v : BitVec n) : OutFile := OutFile.cleared.write .res (place v)

/-- `HostRead(n)` (20_memory.md R50, R55): the value of register n goes to the host and no engine state changes. A number
above 0x3F is refused (93_implementation_defined.md U17). -/
def hostRead (n : Nat) (s : State) : StepResult :=
  if n < 64 then .next (s.addReply (s.out.readNumber (BitVec.ofNat 6 n))) else .refused .noSuchRegister

/-- `RESET` (70_reset_and_hazards.md R210): every output register takes its reset value, the ROM is not touched. -/
def resetEngine (s : State) : State := s.setOut OutFile.cleared

/-- The platform fills the ROM, once (10_state.md R20, 70_reset_and_hazards.md R212), with a table that has the stated entry
(10_state.md R21). DESIGN CHOICE (log entry 5): a second loading and a table without the entry are refused. -/
def loadRom (t : SBox) (s : State) : StepResult :=
  match s.rom with
  | some _ => .refused .romAlreadyLoaded
  | none => if hasStatedEntry t then .next (s.setRom t) else .refused .romLacksStatedEntry

end Sys2Proof.Machine
end

