-- ==== Sys2Proof/Machine/KeySchedule.lean ====
section
/-! DEFINITION. The key schedule (42_key_schedule.md): `RotL`, `Compress`, `Subkeys` and the commands ROTL, COMPRESS,
GENKEYS. -/

namespace Sys2Proof.Machine

/-- `RotL(v, n, s)`, the left circular shift, in its integer form `((v << s') | (v >> (n - s')))` with `s' = s mod n`
(42_key_schedule.md R120). -/
def rotL {n : Nat} (v : BitVec n) (s : Nat) : BitVec n := (v <<< (s % n)) ||| (v >>> (n - s % n))

/-- `Compress(kl, kr)`: of `k = kl || kr` the bits `k[2] || k[6] || k[4] || k[5] || k[0] || k[7]` (42_key_schedule.md R122). -/
def compress (kl kr : Nibble) : Sextet :=
  let k : Byte := kl ++ kr
  bit k 2 ++ bit k 6 ++ bit k 4 ++ bit k 5 ++ bit k 0 ++ bit k 7

/-- The values of one round of the key schedule (10_state.md R26, R30): working values, no state. -/
structure KeyRound where
  kl : Nibble
  kr : Nibble
  k : Sextet
  deriving DecidableEq, Repr

/-- The rotation of schedule round i, `SHIFTS = (1, 2, 1)` (00_scope.md R9, 42_key_schedule.md R124). -/
def shifts : Round → Nat
  | .r1 => 1
  | .r2 => 2
  | .r3 => 1

/-- One round of the key schedule: both halves rotated independently, then compressed (42_key_schedule.md R124). -/
def scheduleRound (i : Round) (kl kr : Nibble) : KeyRound :=
  let l := rotL kl (shifts i)
  let r := rotL kr (shifts i)
  ⟨l, r, compress l r⟩

/-- The three rounds of the key schedule of a key (42_key_schedule.md R124). -/
def keySchedule (key : Byte) : KeyRound × KeyRound × KeyRound :=
  let c1 := scheduleRound .r1 (highHalf key) (lowHalf key)
  let c2 := scheduleRound .r2 c1.kl c1.kr
  let c3 := scheduleRound .r3 c2.kl c2.kr
  (c1, c2, c3)

/-- `Subkeys(key) = (K1, K2, K3)` (42_key_schedule.md R124), the same for encryption and decryption (R126). -/
def subkeys (key : Byte) : Sextet × Sextet × Sextet :=
  let kl0 := highHalf key
  let kr0 := lowHalf key
  let kl1 := rotL kl0 1
  let kr1 := rotL kr0 1
  let kl2 := rotL kl1 2
  let kr2 := rotL kr1 2
  let kl3 := rotL kl2 1
  let kr3 := rotL kr2 1
  (compress kl1 kr1, compress kl2 kr2, compress kl3 kr3)

/-- The key-schedule registers of round i written (10_state.md R30). -/
def writeKeyRound (i : Round) (c : KeyRound) (o : OutFile) : OutFile :=
  ((o.write (.kl i) (place c.kl)).write (.kr i) (place c.kr)).write (.k i) (place c.k)

/-- All nine key-schedule registers written, in generation order (10_state.md R30). -/
def writeKeySchedule (key : Byte) (o : OutFile) : OutFile :=
  let c := keySchedule key
  writeKeyRound .r3 c.2.2 (writeKeyRound .r2 c.2.1 (writeKeyRound .r1 c.1 o))

/-- ROTL: the shift amount is the whole field B and is not checked (42_key_schedule.md R121). -/
def execRotl (a s : Byte) (st : State) : StepResult :=
  runCommand false ((acceptWidth 4 a).map fun v _ => resultOnly (rotL v s.toNat)) st

/-- COMPRESS (42_key_schedule.md R123). -/
def execCompress (kl kr : Byte) (s : State) : StepResult :=
  runCommand false
    ((acceptWidth 4 kl).bind fun l => (acceptWidth 4 kr).map fun r _ => resultOnly (compress l r)) s

/-- GENKEYS: the subkeys go to K1, K2, K3, and RES stays 0 (42_key_schedule.md R125). -/
def execGenkeys (key : Byte) (s : State) : StepResult :=
  runCommand false
    ((acceptWidth 8 key).map fun v _ =>
      let ks := subkeys v
      ((OutFile.cleared.write (.k .r1) (place ks.1)).write (.k .r2) (place ks.2.1)).write (.k .r3) (place ks.2.2)) s

end Sys2Proof.Machine
end

