-- ==== Sys2Proof/Machine/BitTransforms.lean ====
section
/-! DEFINITION. The bit transformations (41_bit_transforms.md): the pure functions `Expand`, `Subst`, `Permute` and the
commands EXPAND, SUBST, PERMUTE. -/

namespace Sys2Proof.Machine

/-- `Expand(a) = a[1] || a[0] || a[2] || a[1] || a[2] || a[3]` (41_bit_transforms.md R100). -/
def expand (a : Nibble) : Sextet := bit a 1 ++ bit a 0 ++ bit a 2 ++ bit a 1 ++ bit a 2 ++ bit a 3

/-- The S-box row of an input, `x[5] || x[0]` (41_bit_transforms.md R102). -/
def sboxRow (x : Sextet) : RowNo := bit x 5 ++ bit x 0

/-- The S-box column of an input, `x[4:1]` (41_bit_transforms.md R102). -/
def sboxCol (x : Sextet) : Nibble := x.extractLsb' 1 4

/-- `Subst(x) = SBOX[row][col]` (41_bit_transforms.md R102). -/
def subst (t : SBox) (x : Sextet) : Nibble := romEntry t (sboxRow x) (sboxCol x)

/-- `Permute(a) = a[1] || a[3] || a[0] || a[2]` (41_bit_transforms.md R104). -/
def permute (a : Nibble) : Nibble := bit a 1 ++ bit a 3 ++ bit a 0 ++ bit a 2

/-- EXPAND (41_bit_transforms.md R101). -/
def execExpand (a : Byte) (s : State) : StepResult :=
  runCommand false ((acceptWidth 4 a).map fun v _ => resultOnly (expand v)) s

/-- SUBST (41_bit_transforms.md R103). -/
def execSubst (a : Byte) (s : State) : StepResult :=
  runCommand false ((acceptWidth 6 a).map fun x t => resultOnly (subst t x)) s

/-- PERMUTE (41_bit_transforms.md R105). -/
def execPermute (a : Byte) (s : State) : StepResult :=
  runCommand false ((acceptWidth 4 a).map fun v _ => resultOnly (permute v)) s

end Sys2Proof.Machine
end

