-- ==== Sys2Proof/Machine/RoundFunction.lean ====
section
/-! DEFINITION. The Feistel round function (43_round_function.md): `F`, its detailed variant, and the commands FROUND and
FROUND.T. -/

namespace Sys2Proof.Machine

/-- `F(r, k) = Permute(Subst(Expand(r) ^ k))` (43_round_function.md R140). -/
def roundF (t : SBox) (r : Nibble) (k : Sextet) : Nibble := permute (subst t (expand r ^^^ k))

/-- What the detailed variant of `F` returns (43_round_function.md R141): working values, no state. -/
structure RoundTrace where
  e : Sextet
  x : Sextet
  row : RowNo
  col : Nibble
  sv : Nibble
  p : Nibble
  deriving DecidableEq, Repr

/-- The detailed variant of `F` (43_round_function.md R140 pseudocode, R141). -/
def roundTrace (t : SBox) (r : Nibble) (k : Sextet) : RoundTrace :=
  let e := expand r
  let x := e ^^^ k
  let row := sboxRow x
  let col := sboxCol x
  let sv := romEntry t row col
  ⟨e, x, row, col, sv, permute sv⟩

/-- The registers E to P of step record j written (10_state.md R31, 43_round_function.md R143). -/
def writeRoundTrace (j : Round) (c : RoundTrace) (o : OutFile) : OutFile :=
  (((((o.write (.e j) (place c.e)).write (.x j) (place c.x)).write (.row j) (place c.row)).write (.col j)
    (place c.col)).write (.sv j) (place c.sv)).write (.p j) (place c.p)

/-- FROUND (43_round_function.md R142). -/
def execFround (r k : Byte) (s : State) : StepResult :=
  runCommand false
    ((acceptWidth 4 r).bind fun v => (acceptWidth 6 k).map fun sk t => resultOnly (roundF t v sk)) s

/-- FROUND.T: RES and the first six registers of step record 1 (43_round_function.md R143). -/
def execFroundT (r k : Byte) (s : State) : StepResult :=
  runCommand true
    ((acceptWidth 4 r).bind fun v => (acceptWidth 6 k).map fun sk t =>
      let c := roundTrace t v sk
      (writeRoundTrace .r1 c OutFile.cleared).write .res (place c.p)) s

end Sys2Proof.Machine
end

