-- ==== Sys2Proof/Machine/EncryptDecrypt.lean ====
section
/-! DEFINITION. Encryption and decryption (44_encrypt_decrypt.md): the pure functions, the step records of the traced forms,
and the commands ENCRYPT, ENCRYPT.T, DECRYPT, DECRYPT.T. The plain functions follow R150 and R154, the traced runs follow the
loops of R153 and R156; that they agree (R158) is a statement, not a definition. -/

namespace Sys2Proof.Machine

/-- The round state `(L, R)` (10_state.md R25). -/
abbrev RoundState := Nibble × Nibble

/-- One encryption round, `(R, L ^ F(R, K))` (44_encrypt_decrypt.md R150, R154). -/
def encStep (t : SBox) (s : RoundState) (k : Sextet) : RoundState := (s.2, s.1 ^^^ roundF t s.2 k)

/-- One decryption step, `(R ^ F(L, K), L)`: F on the current left half, then the swap (44_encrypt_decrypt.md R154). -/
def decStep (t : SBox) (s : RoundState) (k : Sextet) : RoundState := (s.2 ^^^ roundF t s.1 k, s.1)

/-- The halves exchanged (44_encrypt_decrypt.md R154). -/
def swapHalves (s : RoundState) : RoundState := (s.2, s.1)

/-- A block split into its halves (00_scope.md R3). -/
def splitBlock (b : Byte) : RoundState := (highHalf b, lowHalf b)

/-- `L || R`, left half first (00_scope.md R4). -/
def joinBlock (s : RoundState) : Byte := s.1 ++ s.2

/-- `Encrypt(p, key)`: three rounds with K1, K2, K3, no swap after the third (44_encrypt_decrypt.md R150, R151). -/
def encrypt (t : SBox) (p key : Byte) : Byte :=
  let ks := subkeys key
  let s0 := splitBlock p
  let s1 := encStep t s0 ks.1
  let s2 := encStep t s1 ks.2.1
  let s3 := encStep t s2 ks.2.2
  joinBlock s3

/-- `Decrypt(c, key)`: three steps with K3, K2, K1 (44_encrypt_decrypt.md R154). -/
def decrypt (t : SBox) (c key : Byte) : Byte :=
  let ks := subkeys key
  let sa := splitBlock c
  let sb := decStep t sa ks.2.2
  let sc := decStep t sb ks.2.1
  let sd := decStep t sc ks.1
  joinBlock sd

/-- One step record (10_state.md R31): the values of `F` and the round state after the step. A working value, no state. -/
structure StepRecord where
  round : RoundTrace
  l : Nibble
  r : Nibble
  deriving DecidableEq, Repr

/-- The round state a record holds. -/
def StepRecord.halves (c : StepRecord) : RoundState := (c.l, c.r)

/-- One encryption step recorded: F on the right half (44_encrypt_decrypt.md R153 loop body, R160). -/
def encRecord (t : SBox) (s : RoundState) (k : Sextet) : StepRecord :=
  let c := roundTrace t s.2 k
  ⟨c, s.2, s.1 ^^^ c.p⟩

/-- One decryption step recorded: F on the left half, the pair after the swap (44_encrypt_decrypt.md R156 loop body, R161). -/
def decRecord (t : SBox) (s : RoundState) (k : Sextet) : StepRecord :=
  let c := roundTrace t s.1 k
  ⟨c, s.2 ^^^ c.p, s.1⟩

/-- The three records of an encryption, in the order the steps are executed (44_encrypt_decrypt.md R153, R160). -/
def encRecords (t : SBox) (p key : Byte) : StepRecord × StepRecord × StepRecord :=
  let c := keySchedule key
  let s1 := encRecord t (splitBlock p) c.1.k
  let s2 := encRecord t s1.halves c.2.1.k
  let s3 := encRecord t s2.halves c.2.2.k
  (s1, s2, s3)

/-- The three records of a decryption: step 1 uses K3, step 2 K2, step 3 K1 (44_encrypt_decrypt.md R156, R161). -/
def decRecords (t : SBox) (b key : Byte) : StepRecord × StepRecord × StepRecord :=
  let c := keySchedule key
  let s1 := decRecord t (splitBlock b) c.2.2.k
  let s2 := decRecord t s1.halves c.2.1.k
  let s3 := decRecord t s2.halves c.1.k
  (s1, s2, s3)

/-- Step record j written, all eight registers (10_state.md R31). -/
def writeStepRecord (j : Round) (c : StepRecord) (o : OutFile) : OutFile :=
  ((writeRoundTrace j c.round o).write (.l j) (place c.l)).write (.r j) (place c.r)

/-- The complete trace written, and `RES <- S3.L || S3.R` (44_encrypt_decrypt.md R153, R156, R159). -/
def writeTrace (key : Byte) (c : StepRecord × StepRecord × StepRecord) : OutFile :=
  (writeStepRecord .r3 c.2.2 (writeStepRecord .r2 c.2.1 (writeStepRecord .r1 c.1
    (writeKeySchedule key OutFile.cleared)))).write .res (joinBlock c.2.2.halves)

/-- ENCRYPT (44_encrypt_decrypt.md R152). -/
def execEncrypt (p key : Byte) (s : State) : StepResult :=
  runCommand false
    ((acceptWidth 8 p).bind fun b => (acceptWidth 8 key).map fun k t => resultOnly (encrypt t b k)) s

/-- ENCRYPT.T (44_encrypt_decrypt.md R153). -/
def execEncryptT (p key : Byte) (s : State) : StepResult :=
  runCommand true
    ((acceptWidth 8 p).bind fun b => (acceptWidth 8 key).map fun k t => writeTrace k (encRecords t b k)) s

/-- DECRYPT (44_encrypt_decrypt.md R155). -/
def execDecrypt (c key : Byte) (s : State) : StepResult :=
  runCommand false
    ((acceptWidth 8 c).bind fun b => (acceptWidth 8 key).map fun k t => resultOnly (decrypt t b k)) s

/-- DECRYPT.T (44_encrypt_decrypt.md R156). -/
def execDecryptT (c key : Byte) (s : State) : StepResult :=
  runCommand true
    ((acceptWidth 8 c).bind fun b => (acceptWidth 8 key).map fun k t => writeTrace k (decRecords t b k)) s

end Sys2Proof.Machine
end

