-- ==== Sys2Proof/Machine/Dispatch.lean ====
section
/-! DEFINITION. One arm per command: step 4 of the common execution rule (30_encoding.md R81) is the command's own meaning. -/

namespace Sys2Proof.Machine

def exec (i : Instr) (s : State) : Host.Outcome State Fault Refusal :=
  match i with
  | .expand a => Sys2Proof.Machine.execExpand a s
  | .subst a => Sys2Proof.Machine.execSubst a s
  | .permute a => Sys2Proof.Machine.execPermute a s
  | .rotl a n => Sys2Proof.Machine.execRotl a n s
  | .compress kl kr => Sys2Proof.Machine.execCompress kl kr s
  | .genkeys key => Sys2Proof.Machine.execGenkeys key s
  | .fround r k => Sys2Proof.Machine.execFround r k s
  | .froundT r k => Sys2Proof.Machine.execFroundT r k s
  | .encrypt p key => Sys2Proof.Machine.execEncrypt p key s
  | .encryptT p key => Sys2Proof.Machine.execEncryptT p key s
  | .decrypt c key => Sys2Proof.Machine.execDecrypt c key s
  | .decryptT c key => Sys2Proof.Machine.execDecryptT c key s

end Sys2Proof.Machine
end

