-- ==== Sys2Proof/Machine/HostPort.lean ====
section
/-! DEFINITION. What an operation that reaches the instance does: `HostCommand(w)` (30_encoding.md R81), `HostRead(n)`,
`RESET`, the loading of the ROM, and the bus accesses that are no host operation. -/

namespace Sys2Proof.Machine

/-- `HostCommand(w)` (30_encoding.md R81): decode, then execute, as one atomic step (20_memory.md R54). An illegal word has
priority over a too wide operand (60_exceptions.md R185), since decoding comes first. -/
def hostCommand (w : Word) (s : State) : StepResult :=
  match decode w with
  | .ok i => exec i s
  | .error _ => runIllegal s

/-- One operation takes effect (20_memory.md R58). -/
def perform (ev : Event) (s : State) : StepResult :=
  match ev with
  | .command w => hostCommand w s
  | .read n => hostRead n s
  | .reset => .next (resetEngine s)
  | .loadRom t => loadRom t s
  | .writeRegister _ _ => .refused .registerWrite
  | .readPort => .refused .commandPortRead

/-- The operation that reached the instance first takes effect, and leaves the waiting list (20_memory.md R58). With no
operation waiting nothing happens: the engine is ready and never asleep (60_exceptions.md R195; DEDUCED, log entry 3). -/
def takeNext (s : State) : StepResult :=
  match s.pending with
  | [] => .next s
  | ev :: rest => perform ev (s.setPending rest)

/-- One more operation ahead of all that wait: where `step` takes its next operation. -/
def offerFirst (ev : Event) (s : State) : State := s.setPending (ev :: s.pending)

end Sys2Proof.Machine
end

