-- ==== Sys2Proof/Machine/Step.lean ====
section
/-! DEFINITION. One step of the machine is one host operation on one engine instance (10_state.md section 1). -/

namespace Sys2Proof.Machine

/-- One step: the operation that reached the instance first takes effect (20_memory.md R58). -/
def step (s : State) : Host.Outcome State Fault Refusal := takeNext s

/-- The state in which the very next step is `HostCommand` of the given word. The engine fetches no instructions (10_state.md
R34): the program is the sequence of commands the host issues, and this puts one command ahead of the waiting operations. A
number that is no 32-bit word is no command, and nothing is put there (log entries 1 and 11). -/
def State.withFetchWord (s : State) (nbits w : Nat) : State :=
  match Sys2Proof.tableWord nbits w with
  | none => s
  | some v => offerFirst (.command v) s

end Sys2Proof.Machine
end

