-- ==== Sys2Proof/Machine/Assembler.lean ====
section
/-! DEFINITION. The assembler syntax (30_encoding.md R79): one command a line, `MNEMONIC a` or `MNEMONIC a, b`, operands 0 to
255 in hexadecimal, binary or decimal, a comment from `;` to the end of the line; no pseudo-instructions, labels or
directives. What R79 leaves open (spaces and tabs between the parts, either case of a hexadecimal digit, leading zeros) is a
DESIGN CHOICE (log entry 12). It is notation only (D25): the machine does not use it. -/

namespace Sys2Proof.Machine

/-- Why a line is no command. -/
inductive AsmError where
  /-- The mnemonic with this number of operands is no command. -/
  | noSuchCommand
  /-- An operand is not an unsigned integer 0..255. -/
  | badOperand
  deriving DecidableEq, Repr

/-- A space or a tab. -/
def isBlank (c : Char) : Bool := c == ' ' || c == '\t'

/-- The line without its comment. -/
def stripComment (l : List Char) : List Char := l.takeWhile (· != ';')

/-- The characters without the blanks at both ends. -/
def trimBlanks (l : List Char) : List Char := ((l.dropWhile isBlank).reverse.dropWhile isBlank).reverse

/-- The parts between the commas. -/
def splitCommas : List Char → List (List Char)
  | [] => [[]]
  | c :: cs =>
    match splitCommas cs with
    | [] => [[c]]
    | part :: parts => if c = ',' then [] :: part :: parts else (c :: part) :: parts

/-- The value of a digit in a base up to 16. -/
def digitValue (base : Nat) (c : Char) : Option Nat :=
  let n := c.toNat
  let v :=
    if 48 ≤ n ∧ n ≤ 57 then n - 48
    else if 65 ≤ n ∧ n ≤ 70 then n - 55
    else if 97 ≤ n ∧ n ≤ 102 then n - 87
    else base
  if v < base then some v else none

/-- The value of a row of digits, most significant first, after `acc`. -/
def digitsValue (base acc : Nat) : List Char → Option Nat
  | [] => some acc
  | c :: cs => (digitValue base c).bind fun d => digitsValue base (acc * base + d) cs

/-- A number of at least one digit. -/
def numberValue (base : Nat) (ds : List Char) : Option Nat := if ds.isEmpty then none else digitsValue base 0 ds

/-- An unsigned integer in hexadecimal (`0x5C`), binary (`0b01011100`) or decimal (`92`). -/
def integerValue : List Char → Option Nat
  | '0' :: 'x' :: ds => numberValue 16 ds
  | '0' :: 'b' :: ds => numberValue 2 ds
  | ds => numberValue 10 ds

/-- An operand: an unsigned integer 0..255. -/
def operandValue (l : List Char) : Option Byte :=
  (integerValue l).bind fun n => if n < 256 then some (BitVec.ofNat 8 n) else none

/-- The command of a mnemonic and its operands. -/
def commandOf (mnemonic : String) (operands : List Byte) : Option Instr :=
  match mnemonic, operands with
  | "EXPAND", [a] => some (.expand a)
  | "SUBST", [a] => some (.subst a)
  | "PERMUTE", [a] => some (.permute a)
  | "ROTL", [a, s] => some (.rotl a s)
  | "COMPRESS", [kl, kr] => some (.compress kl kr)
  | "GENKEYS", [key] => some (.genkeys key)
  | "FROUND", [r, k] => some (.fround r k)
  | "FROUND.T", [r, k] => some (.froundT r k)
  | "ENCRYPT", [p, key] => some (.encrypt p key)
  | "ENCRYPT.T", [p, key] => some (.encryptT p key)
  | "DECRYPT", [c, key] => some (.decrypt c key)
  | "DECRYPT.T", [c, key] => some (.decryptT c key)
  | _, _ => none

/-- All operands, none if one of them is bad. -/
def operandValues : List (List Char) → Option (List Byte)
  | [] => some []
  | l :: ls => (operandValue (trimBlanks l)).bind fun v => (operandValues ls).map fun vs => v :: vs

/-- One line: no command for an empty line or a comment line, else the word of its command. -/
def assembleLine (line : String) : Except AsmError (Option Word) :=
  let body := trimBlanks (stripComment line.toList)
  let name := body.takeWhile fun c => !isBlank c
  if body.isEmpty then .ok none
  else
    match operandValues (splitCommas (body.dropWhile fun c => !isBlank c)) with
    | none => .error .badOperand
    | some vs =>
      match commandOf (String.ofList name) vs with
      | none => .error .noSuchCommand
      | some i => .ok (some (encode i))

/-- A program: the words of its command lines, in order. -/
def assembleProgram : List String → Except AsmError (List Word)
  | [] => .ok []
  | l :: ls =>
    match assembleLine l, assembleProgram ls with
    | .error e, _ => .error e
    | _, .error e => .error e
    | .ok none, .ok ws => .ok ws
    | .ok (some w), .ok ws => .ok (w :: ws)

end Sys2Proof.Machine
end

