-- ==== Sys2Proof/Machine/Platform.lean ====
section
/-! DEFINITION. Several engine instances (20_memory.md R64, 60_exceptions.md R193): each has its own register file and command
port; a turn of the platform is one step of one instance. Sharing the read-only ROM can not be observed, so each instance
holds its own copy (log entry 8). -/

namespace Sys2Proof.Machine

/-- The engine instances of a platform, by number. -/
abbrev Platform := List State

/-- The platform right after reset: `NUM_ENGINES` instances (20_memory.md R64). -/
def Platform.reset : Platform := List.replicate Sys2Proof.Config.numEngines State.reset

/-- Instance k takes one step, no other changes (20_memory.md R64). -/
def stepAt (k : Nat) (p : Platform) : Host.Outcome Platform Fault Refusal :=
  match p[k]? with
  | none => .refused .noSuchEngine
  | some s =>
    match step s with
    | .next s' => .next (p.set k s')
    | .fault r => .fault r
    | .refused r => .refused r

end Sys2Proof.Machine
end

