-- ==== Sys2Proof/Safety.lean ====
section
/-! DEFINITION. The words the claims use: what the register file shows, how a command ends, and what every state of a run
satisfies. -/

namespace Sys2Proof.Machine

/-- The value a list of named registers gives to register number n, by the register number arithmetic of 10_state.md section 4;
0 for every number not named. The machine reads registers by the table of R27 (`regOfNumber`) and not by this arithmetic. -/
def shownAt (shown : List (OutReg × Byte)) (n : RegNo) : Byte :=
  match shown.find? fun entry => entry.1.number == n with
  | none => 0
  | some entry => entry.2

/-- The registers read exactly as listed, and every other register number reads 0 ("A register that the command's rule does
not name reads 0 after the command", 30_encoding.md R81). -/
def OutFile.ShowsExactly (o : OutFile) (shown : List (OutReg × Byte)) : Prop :=
  ∀ n : RegNo, o.readNumber n = shownAt shown n

/-- The answer is a next state that differs from s in the register file only, and there the registers read exactly as listed.
So the ROM, the waiting operations and the values already returned to the host are as they were. -/
def NextShowing (answer : StepResult) (s : State) (shown : List (OutReg × Byte)) : Prop :=
  ∃ o : OutFile, answer = .next (s.setOut o) ∧ o.ShowsExactly shown

/-- In every state whose ROM holds a table t, the command completes and the registers then read exactly as listed for t. -/
def CompletesShowing (i : Instr) (shown : SBox → List (OutReg × Byte)) : Prop :=
  ∀ (s : State) (t : SBox), s.rom = some t → NextShowing (exec i s) s (shown t)

/-- In every state whose ROM holds a table, the command answers a next state in which STATUS reads st and every other register
reads 0 (60_exceptions.md R186). -/
def EndsWithStatus (i : Instr) (st : Byte) : Prop :=
  ∀ (s : State) (t : SBox), s.rom = some t → NextShowing (exec i s) s [(.status, st)]

/-- The word is none of the twelve commands. -/
def IllegalWord (w : Word) : Prop := ∃ e : DecodeError, decode w = .error e

/-- The column "IllegalCommand when (besides `Z != 0`)" of the table of 60_exceptions.md R182. -/
def IllegalByTable (w : Word) : Prop :=
  match (fieldOpc w).toNat with
  | 0x1 => fieldT w = true ∨ fieldB w ≠ 0#8
  | 0x2 => fieldT w = true ∨ fieldB w ≠ 0#8
  | 0x3 => fieldT w = true ∨ fieldB w ≠ 0#8
  | 0x4 => fieldT w = true
  | 0x5 => fieldT w = true
  | 0x6 => fieldT w = true ∨ fieldB w ≠ 0#8
  | 0x7 => False
  | 0x8 => False
  | 0x9 => False
  | _ => True

/-- The column "InvalidWidth when" of the table of 60_exceptions.md R182. -/
def TooWideByTable (w : Word) : Prop :=
  match (fieldOpc w).toNat with
  | 0x1 => 0x10 ≤ (fieldA w).toNat
  | 0x2 => 0x40 ≤ (fieldA w).toNat
  | 0x3 => 0x10 ≤ (fieldA w).toNat
  | 0x4 => 0x10 ≤ (fieldA w).toNat
  | 0x5 => 0x10 ≤ (fieldA w).toNat ∨ 0x10 ≤ (fieldB w).toNat
  | 0x6 => False
  | 0x7 => 0x10 ≤ (fieldA w).toNat ∨ 0x40 ≤ (fieldB w).toNat
  | 0x8 => False
  | 0x9 => False
  | _ => False

/-- The nine key-schedule registers of a key `KL0 || KR0` as the traced commands show them (10_state.md R30), from the
pseudocode of 42_key_schedule.md R124. -/
def shownSchedule (kl0 kr0 : Nibble) : List (OutReg × Byte) :=
  let kl1 := rotL kl0 1
  let kr1 := rotL kr0 1
  let kl2 := rotL kl1 2
  let kr2 := rotL kr1 2
  let kl3 := rotL kl2 1
  let kr3 := rotL kr2 1
  [(.kl .r1, kl1.setWidth 8), (.kr .r1, kr1.setWidth 8), (.k .r1, (compress kl1 kr1).setWidth 8),
   (.kl .r2, kl2.setWidth 8), (.kr .r2, kr2.setWidth 8), (.k .r2, (compress kl2 kr2).setWidth 8),
   (.kl .r3, kl3.setWidth 8), (.kr .r3, kr3.setWidth 8), (.k .r3, (compress kl3 kr3).setWidth 8)]

/-- Registers E to P of step record j for `F(r, k)`, written out from the formulas of 43_round_function.md R140 and R141:
`E = Expand(r)`, `X = E ^ k`, `ROW = X[5] || X[0]`, `COL = X[4:1]`, `SV = Subst(X)`, `P = Permute(SV)`. -/
def shownRound (t : SBox) (j : Round) (r : Nibble) (k : Sextet) : List (OutReg × Byte) :=
  let x := expand r ^^^ k
  [(.e j, (expand r).setWidth 8), (.x j, x.setWidth 8), (.row j, (x.extractLsb' 5 1 ++ x.extractLsb' 0 1).setWidth 8),
   (.col j, (x.extractLsb' 1 4).setWidth 8), (.sv j, (subst t x).setWidth 8), (.p j, (permute (subst t x)).setWidth 8)]

/-- Registers L and R of step record j (10_state.md R31). -/
def shownHalves (j : Round) (l r : Nibble) : List (OutReg × Byte) := [(.l j, l.setWidth 8), (.r j, r.setWidth 8)]

/-- The reserved register numbers (10_state.md R32). -/
def isReservedNumber (n : RegNo) : Bool :=
  [0x02, 0x03, 0x07, 0x0B, 0x0F].contains n.toNat || decide (0x28 ≤ n.toNat)

/-- The registers only a traced command writes: all of the trace but K1, K2, K3 (10_state.md R27, last column). -/
def OutReg.traceOnly : OutReg → Bool
  | .status => false
  | .res => false
  | .kl _ => true
  | .kr _ => true
  | .k _ => false
  | .e _ => true
  | .x _ => true
  | .row _ => true
  | .col _ => true
  | .sv _ => true
  | .p _ => true
  | .l _ => true
  | .r _ => true

/-- The five values STATUS can hold (10_state.md R28). -/
def statusValues : List Byte := [0x00, 0x01, 0x11, 0x06, 0x0A]

/-- What every state of a run satisfies. -/
structure State.Inv (s : State) : Prop where
  /-- A loaded ROM has the entry the spec states (10_state.md R21). -/
  rom : ∀ t, s.rom = some t → hasStatedEntry t = true
  /-- STATUS holds one of its five values (10_state.md R28). -/
  status : s.out.get .status ∈ statusValues
  /-- A register whose content is narrower than 8 bits reads with zeros above (10_state.md R27). -/
  widths : ∀ reg : OutReg, (s.out.get reg).toNat < 2 ^ reg.contentWidth
  /-- Without a successful command nothing but STATUS is non-zero (60_exceptions.md R186, R189; 10_state.md R39). -/
  failed : statusOk (s.out.get .status) = false → ∀ reg : OutReg, reg ≠ .status → s.out.get reg = 0
  /-- Without a valid trace the trace registers are 0 (10_state.md R27, R28). -/
  untraced : statusTv (s.out.get .status) = false → ∀ reg : OutReg, reg.traceOnly = true → s.out.get reg = 0

/-- Several steps, stopping at the first refusal. -/
def runSteps : Nat → State → StepResult
  | 0, s => .next s
  | k + 1, s =>
    match step s with
    | .next s' => runSteps k s'
    | .fault r => .fault r
    | .refused r => .refused r

/-- The state a step answers, if it answers one. -/
def nextState? {σ φ ρ : Type} (answer : Host.Outcome σ φ ρ) : Option σ :=
  match answer with
  | .next s => some s
  | .fault _ => none
  | .refused _ => none

/-- The reason a step is refused with, if it is. -/
def refusal? {σ φ ρ : Type} (answer : Host.Outcome σ φ ρ) : Option ρ :=
  match answer with
  | .next _ => none
  | .fault _ => none
  | .refused r => some r

end Sys2Proof.Machine
end

