-- ==== Sys2Proof/Certificates/Slice0/Obligations.lean ====
section
/-! DEFINITION. The statements for the provers. Each says which rule of spec/ it formalises; OBLIGATIONS.json lists them.
A statement about a step or a command holds for every S-box table: the table is the one the state's ROM holds. -/

open Sys2Proof Sys2Proof.Machine

/-! ### The pure functions of the cipher -/

/-- 00_scope.md R8, on vectors of any length: a shorter (or equal) vector keeps its integer value, a longer one is rejected. -/
def Obligations.ShorterVectorsAreZeroExtendedLongerRejected : Prop :=
  ∀ (width len : Nat) (v : BitVec len),
    (len ≤ width → ∃ r : BitVec width, acceptVector width v = some r ∧ r.toNat = v.toNat) ∧
    (width < len → acceptVector width v = none)

/-- 30_encoding.md R75: which field values pass the check of a declared width, and as what; nothing is truncated. -/
def Obligations.FieldPassesExactlyBelowTwoToTheWidth : Prop :=
  (∀ (width : Nat) (f : Byte), f.toNat < 2 ^ width →
    ∃ v : BitVec width, acceptWidth width f = some v ∧ v.toNat = f.toNat) ∧
  (∀ (width : Nat) (f : Byte), 2 ^ width ≤ f.toNat → acceptWidth width f = none)

/-- 41_bit_transforms.md R100: the index map `b2 b3 b1 b2 b1 b0` in source numbering. -/
def Obligations.ExpandCopiesTheBitsOfItsIndexMap : Prop :=
  ∀ a : Nibble, (expand a).getMsbD 0 = a.getMsbD 2 ∧ (expand a).getMsbD 1 = a.getMsbD 3 ∧
    (expand a).getMsbD 2 = a.getMsbD 1 ∧ (expand a).getMsbD 3 = a.getMsbD 2 ∧
    (expand a).getMsbD 4 = a.getMsbD 1 ∧ (expand a).getMsbD 5 = a.getMsbD 0

/-- 41_bit_transforms.md R102: the row is the number `b0 b5`, the column the number `b1 b2 b3 b4`, for every table. -/
def Obligations.SubstReadsTheRowAndColumnOfItsInput : Prop :=
  ∀ (t : SBox) (x : Sextet) (row : RowNo) (col : Nibble),
    row.getMsbD 0 = x.getMsbD 0 → row.getMsbD 1 = x.getMsbD 5 →
    (∀ i, i < 4 → col.getMsbD i = x.getMsbD (i + 1)) →
    subst t x = (t[row.toNat]'row.isLt)[col.toNat]'col.isLt

/-- 20_memory.md R51: the flat ROM address of `SBOX[row][col]` is `row*16 + col`, and `Subst` reads the flat address
`x{0} x{5} x{1} x{2} x{3} x{4}`. -/
def Obligations.SubstReadsTheFlatAddress : Prop :=
  (∀ (row : RowNo) (col : Nibble), (flatAddress row col).toNat = row.toNat * 16 + col.toNat) ∧
  (∀ (t : SBox) (row : RowNo) (col : Nibble),
    romFlat t (flatAddress row col) = (t[row.toNat]'row.isLt)[col.toNat]'col.isLt) ∧
  (∀ (t : SBox) (x addr : Sextet), addr.getMsbD 0 = x.getMsbD 0 → addr.getMsbD 1 = x.getMsbD 5 →
    addr.getMsbD 2 = x.getMsbD 1 → addr.getMsbD 3 = x.getMsbD 2 → addr.getMsbD 4 = x.getMsbD 3 →
    addr.getMsbD 5 = x.getMsbD 4 → subst t x = romFlat t addr)

/-- 41_bit_transforms.md R104: the index map `b2 b0 b3 b1` in source numbering. -/
def Obligations.PermuteMovesTheBitsOfItsIndexMap : Prop :=
  ∀ a : Nibble, (permute a).getMsbD 0 = a.getMsbD 2 ∧ (permute a).getMsbD 1 = a.getMsbD 0 ∧
    (permute a).getMsbD 2 = a.getMsbD 3 ∧ (permute a).getMsbD 3 = a.getMsbD 1

/-- 42_key_schedule.md R120, for every width and every shift amount: `o{(i - s) mod n} = v{i}`, equally
`o{j} = v{(j + s) mod n}`; rotation by 0 and by n is the identity. -/
def Obligations.RotLMovesEveryBitLeft : Prop :=
  ∀ (n : Nat) (v : BitVec n) (s : Nat),
    (∀ i : Nat, i < n → (rotL v s).getMsbD (((i : Int) - (s : Int)) % (n : Int)).toNat = v.getMsbD i) ∧
    (∀ j : Nat, j < n → (rotL v s).getMsbD j = v.getMsbD ((j + s) % n)) ∧
    rotL v 0 = v ∧ rotL v n = v

/-- 42_key_schedule.md R122: of `k = kl || kr` the bits `k5 k1 k3 k2 k7 k0` in source numbering. -/
def Obligations.CompressPicksTheBitsOfItsIndexMap : Prop :=
  ∀ (kl kr : Nibble) (k : Byte), k = kl ++ kr →
    (compress kl kr).getMsbD 0 = k.getMsbD 5 ∧ (compress kl kr).getMsbD 1 = k.getMsbD 1 ∧
    (compress kl kr).getMsbD 2 = k.getMsbD 3 ∧ (compress kl kr).getMsbD 3 = k.getMsbD 2 ∧
    (compress kl kr).getMsbD 4 = k.getMsbD 7 ∧ (compress kl kr).getMsbD 5 = k.getMsbD 0

/-- 42_key_schedule.md R124: each subkey is `Compress` of the halves rotated by 1, then by 2, then by 1, starting from the high
and the low half of the key. -/
def Obligations.SubkeysFollowTheThreeRotations : Prop :=
  ∀ (key : Byte) (kl0 kr0 kl1 kr1 kl2 kr2 kl3 kr3 : Nibble),
    key = kl0 ++ kr0 → kl1 = rotL kl0 1 → kr1 = rotL kr0 1 → kl2 = rotL kl1 2 → kr2 = rotL kr1 2 →
    kl3 = rotL kl2 1 → kr3 = rotL kr2 1 →
    subkeys key = (compress kl1 kr1, compress kl2 kr2, compress kl3 kr3) ∧
    keySchedule key = (⟨kl1, kr1, compress kl1 kr1⟩, ⟨kl2, kr2, compress kl2 kr2⟩, ⟨kl3, kr3, compress kl3 kr3⟩)

/-- Consequences of the index maps, most of them marked as derived by the spec (41_bit_transforms.md section 1 and 3,
42_key_schedule.md sections 2 and 3): `Expand` is injective; `Permute` has order 4 (its fourth power is the identity and its
second is not); `Compress` is linear over XOR and two pairs of halves have the same result exactly if they agree in every bit but
the discarded `k4` and `k6`; and the rotations of the key schedule add up to the identity, so `K3 = Compress(KL0, KR0)`. -/
def Obligations.BitMapsLoseNothingButTheDiscardedKeyBits : Prop :=
  (∀ a b : Nibble, expand a = expand b → a = b) ∧
  (∀ a : Nibble, permute (permute (permute (permute a))) = a) ∧ (∃ a : Nibble, permute (permute a) ≠ a) ∧
  (∀ a b c d : Nibble, compress (a ^^^ c) (b ^^^ d) = compress a b ^^^ compress c d) ∧
  (∀ kl kr kl' kr' : Nibble, compress kl kr = compress kl' kr' ↔
    ∀ i, i < 8 → i ≠ 4 → i ≠ 6 → (kl ++ kr).getMsbD i = (kl' ++ kr').getMsbD i) ∧
  (∀ key : Byte, (keySchedule key).2.2.kl = highHalf key ∧ (keySchedule key).2.2.kr = lowHalf key ∧
    (subkeys key).2.2 = compress (highHalf key) (lowHalf key))

/-- 42_key_schedule.md R125 (corner cases) and 95_test_vectors.md V15: different keys have different triples of subkeys, and
the three subkeys are equal exactly for the keys 0x00, 0x0F, 0xF0 and 0xFF. -/
def Obligations.SubkeyTriplesTellKeysApart : Prop :=
  (∀ k k' : Byte, subkeys k = subkeys k' → k = k') ∧
  (∀ k : Byte, ((subkeys k).1 = (subkeys k).2.1 ∧ (subkeys k).2.1 = (subkeys k).2.2) ↔
    k = 0x00 ∨ k = 0x0F ∨ k = 0xF0 ∨ k = 0xFF)

/-- 44_encrypt_decrypt.md R154 (the note after the pseudocode): a decryption step is an encryption round on the swapped halves,
and undoes an encryption round, for every table. -/
def Obligations.DecStepUndoesEncStep : Prop :=
  ∀ (t : SBox) (s : RoundState) (k : Sextet),
    decStep t s k = swapHalves (encStep t (swapHalves s) k) ∧ decStep t (encStep t s k) k = s ∧
    encStep t (decStep t s k) k = s

/-- 44_encrypt_decrypt.md section 4: the round-trip law (R157), for every table. That it holds for every table is the spec's own
inference, marked as derived inside the rule, so the statement counts as derived. -/
def Obligations.DecryptUndoesEncryptForEveryTable : Prop :=
  ∀ (t : SBox) (p key : Byte), decrypt t (encrypt t p key) key = p

/-- What the spec derives from the round-trip law (44_encrypt_decrypt.md section 4): encryption undoes decryption, and encryption
under a key is a bijection on the 256 blocks, for every table. -/
def Obligations.EncryptionUnderAKeyIsABijection : Prop :=
  ∀ (t : SBox) (key : Byte), (∀ c : Byte, encrypt t (decrypt t c key) key = c) ∧
    Function.Bijective fun p : Byte => encrypt t p key

/-- 95_test_vectors.md V31: complementing block and key complements the result, for every table. -/
def Obligations.ComplementedInputsGiveComplementedOutputs : Prop :=
  ∀ (t : SBox) (b key : Byte),
    encrypt t (~~~b) (~~~key) = ~~~(encrypt t b key) ∧ decrypt t (~~~b) (~~~key) = ~~~(decrypt t b key)

/-- 44_encrypt_decrypt.md R156 (corner cases): for a ciphertext under the same key, step j of the decryption records the same
values of `F` as step 4-j of the encryption, and its round states run back to the plaintext. -/
def Obligations.DecryptionTraceMirrorsEncryptionTrace : Prop :=
  ∀ (t : SBox) (p key : Byte) (e1 e2 e3 d1 d2 d3 : StepRecord),
    encRecords t p key = (e1, e2, e3) → decRecords t (encrypt t p key) key = (d1, d2, d3) →
    d1.round = e3.round ∧ d2.round = e2.round ∧ d3.round = e1.round ∧
    d1.halves = e2.halves ∧ d2.halves = e1.halves ∧ d3.halves = splitBlock p

/-- 10_state.md R21 and R22: the supplied table, row by row in decimal, and its one entry the source states. -/
def Obligations.SuppliedSboxHasTheSpecsEntries : Prop :=
  (Config.sbox.toList.map fun row => row.toList.map BitVec.toNat) =
    [[14, 4, 13, 1, 2, 15, 11, 8, 3, 10, 6, 12, 5, 9, 0, 7],
     [0, 15, 7, 4, 14, 2, 13, 1, 10, 6, 12, 11, 9, 5, 3, 8],
     [4, 1, 14, 8, 13, 6, 2, 11, 15, 12, 9, 7, 3, 10, 5, 0],
     [15, 12, 8, 2, 4, 9, 1, 7, 5, 11, 3, 14, 10, 0, 6, 13]] ∧
  romEntry Config.sbox 3#2 2#4 = 0x8#4

/-! ### The command word -/

/-- 30_encoding.md R79 (its table): the twelve words written out there decode to the commands they stand for. -/
def Obligations.SampleWordsDecodeToTheirCommands : Prop :=
  decode 0x1000000C = .ok (.expand 0x0C) ∧ decode 0x20000025 = .ok (.subst 0x25) ∧
  decode 0x30000008 = .ok (.permute 0x08) ∧ decode 0x40000106 = .ok (.rotl 0x06 0x01) ∧
  decode 0x50000503 = .ok (.compress 0x03 0x05) ∧ decode 0x6000006A = .ok (.genkeys 0x6A) ∧
  decode 0x7000330C = .ok (.fround 0x0C 0x33) ∧ decode 0x7800330C = .ok (.froundT 0x0C 0x33) ∧
  decode 0x80006A5C = .ok (.encrypt 0x5C 0x6A) ∧ decode 0x88006A5C = .ok (.encryptT 0x5C 0x6A) ∧
  decode 0x90006A06 = .ok (.decrypt 0x06 0x6A) ∧ decode 0x98006A06 = .ok (.decryptT 0x06 0x6A)

/-- 30_encoding.md R70, R76: decoding the encoding of a command gives the command, every operand at every value. -/
def Obligations.DecodeOfEncodeIsTheCommand : Prop :=
  ∀ i : Instr, decode (encode i) = .ok i

/-- 30_encoding.md R70, R76: a legal word is the encoding of the one command it decodes to, so no bit of it is dropped. -/
def Obligations.LegalWordIsTheEncodingOfItsCommand : Prop :=
  ∀ (w : Word) (i : Instr), decode w = .ok i → encode i = w

/-- 30_encoding.md R79: the word is assembled as `(OPC << 28) | (T << 27) | (B << 8) | A`. -/
def Obligations.EncodeIsShiftsAndOrs : Prop :=
  ∀ i : Instr, encode i = (i.opc.setWidth 32 <<< 28) ||| ((BitVec.ofBool i.traced).setWidth 32 <<< 27) |||
    (i.operandB.setWidth 32 <<< 8) ||| i.operandA.setWidth 32

/-- 30_encoding.md R76: when a word is legal; decoding never looks at the value of `A`. -/
def Obligations.LegalWordConditions : Prop :=
  (∀ w : Word, (∃ i, decode w = .ok i) ↔
    (1 ≤ (fieldOpc w).toNat ∧ (fieldOpc w).toNat ≤ 9) ∧ fieldZ w = 0#11 ∧
    (fieldT w = false ∨ (fieldOpc w).toNat ∈ [7, 8, 9]) ∧
    (fieldB w = 0#8 ∨ (fieldOpc w).toNat ∈ [4, 5, 7, 8, 9])) ∧
  (∀ w w' : Word, w.extractLsb' 8 24 = w'.extractLsb' 8 24 → (IllegalWord w ↔ IllegalWord w'))

/-- 30_encoding.md R76 (the table): a word is the command of a row if and only if `(w AND mask) = match`, and no two rows match
the same word. -/
def Obligations.TableRowsMatchTheirCommandsOnly : Prop :=
  (∀ (w : Word) (row : OpcodeRow), row ∈ opcodeRows →
    (w &&& row.mask = row.pattern ↔ ∃ i, decode w = .ok i ∧ i.mnemonic = row.mnemonic)) ∧
  (∀ (w : Word) (row row' : OpcodeRow), row ∈ opcodeRows → row' ∈ opcodeRows →
    w &&& row.mask = row.pattern → w &&& row'.mask = row'.pattern → row = row')

/-- 30_encoding.md R76: the number of legal words is 525,312. -/
def Obligations.LegalWordCount : Prop :=
  ∃ ws : List Word, ws.Nodup ∧ ws.length = 525312 ∧ ∀ w : Word, w ∈ ws ↔ ∃ i, decode w = .ok i

/-- 30_encoding.md R77: which words are illegal, and that an illegal word executes as `IllegalCommand` and computes nothing. -/
def Obligations.IllegalWordsExecuteAsIllegalCommand : Prop :=
  (∀ w : Word, IllegalWord w ↔
    ((fieldOpc w).toNat = 0 ∨ 0xA ≤ (fieldOpc w).toNat ∨ fieldZ w ≠ 0#11 ∨
      (fieldT w = true ∧ (fieldOpc w).toNat ∈ [1, 2, 3, 4, 5, 6]) ∨
      (fieldB w ≠ 0#8 ∧ (fieldOpc w).toNat ∈ [1, 2, 3, 6]))) ∧
  (∀ (w : Word) (s : State) (t : SBox) (rest : List Event), s.rom = some t → s.pending = .command w :: rest →
    IllegalWord w → NextShowing (step s) (s.setPending rest) [(.status, 0x0A)])

/-! ### The twelve commands: completion, result, the whole register file after it, and where the command ends in an error -/

/-- 41_bit_transforms.md R101. -/
def Obligations.ExpandCommandWritesItsResult : Prop :=
  (∀ a : Byte, a.toNat < 16 →
    CompletesShowing (.expand a) fun _ => [(.status, 0x01), (.res, (expand (a.setWidth 4)).setWidth 8)]) ∧
  (∀ a : Byte, 16 ≤ a.toNat → EndsWithStatus (.expand a) 0x06) ∧
  (∀ w : Word, fieldOpc w = 0x1 →
    (fieldZ w = 0#11 ∧ fieldT w = false ∧ fieldB w = 0#8 → decode w = .ok (.expand (fieldA w))) ∧
    (¬(fieldZ w = 0#11 ∧ fieldT w = false ∧ fieldB w = 0#8) → IllegalWord w))

/-- 41_bit_transforms.md R103. -/
def Obligations.SubstCommandWritesItsResult : Prop :=
  (∀ a : Byte, a.toNat < 64 →
    CompletesShowing (.subst a) fun t => [(.status, 0x01), (.res, (subst t (a.setWidth 6)).setWidth 8)]) ∧
  (∀ a : Byte, 64 ≤ a.toNat → EndsWithStatus (.subst a) 0x06) ∧
  (∀ w : Word, fieldOpc w = 0x2 →
    (fieldZ w = 0#11 ∧ fieldT w = false ∧ fieldB w = 0#8 → decode w = .ok (.subst (fieldA w))) ∧
    (¬(fieldZ w = 0#11 ∧ fieldT w = false ∧ fieldB w = 0#8) → IllegalWord w))

/-- 41_bit_transforms.md R105. -/
def Obligations.PermuteCommandWritesItsResult : Prop :=
  (∀ a : Byte, a.toNat < 16 →
    CompletesShowing (.permute a) fun _ => [(.status, 0x01), (.res, (permute (a.setWidth 4)).setWidth 8)]) ∧
  (∀ a : Byte, 16 ≤ a.toNat → EndsWithStatus (.permute a) 0x06) ∧
  (∀ w : Word, fieldOpc w = 0x3 →
    (fieldZ w = 0#11 ∧ fieldT w = false ∧ fieldB w = 0#8 → decode w = .ok (.permute (fieldA w))) ∧
    (¬(fieldZ w = 0#11 ∧ fieldT w = false ∧ fieldB w = 0#8) → IllegalWord w))

/-- 42_key_schedule.md R121: the shift amount is the whole field `B`, never checked. -/
def Obligations.RotlCommandWritesItsResult : Prop :=
  (∀ a s : Byte, a.toNat < 16 →
    CompletesShowing (.rotl a s) fun _ => [(.status, 0x01), (.res, (rotL (a.setWidth 4) s.toNat).setWidth 8)]) ∧
  (∀ a s : Byte, 16 ≤ a.toNat → EndsWithStatus (.rotl a s) 0x06) ∧
  (∀ w : Word, fieldOpc w = 0x4 →
    (fieldZ w = 0#11 ∧ fieldT w = false → decode w = .ok (.rotl (fieldA w) (fieldB w))) ∧
    (¬(fieldZ w = 0#11 ∧ fieldT w = false) → IllegalWord w))

/-- 42_key_schedule.md R123. -/
def Obligations.CompressCommandWritesItsResult : Prop :=
  (∀ kl kr : Byte, kl.toNat < 16 → kr.toNat < 16 →
    CompletesShowing (.compress kl kr) fun _ =>
      [(.status, 0x01), (.res, (compress (kl.setWidth 4) (kr.setWidth 4)).setWidth 8)]) ∧
  (∀ kl kr : Byte, 16 ≤ kl.toNat ∨ 16 ≤ kr.toNat → EndsWithStatus (.compress kl kr) 0x06) ∧
  (∀ w : Word, fieldOpc w = 0x5 →
    (fieldZ w = 0#11 ∧ fieldT w = false → decode w = .ok (.compress (fieldA w) (fieldB w))) ∧
    (¬(fieldZ w = 0#11 ∧ fieldT w = false) → IllegalWord w))

/-- 42_key_schedule.md R125: RES and the half registers stay 0, and `InvalidWidth` can not arise. -/
def Obligations.GenkeysCommandWritesTheSubkeys : Prop :=
  (∀ key : Byte, CompletesShowing (.genkeys key) fun _ =>
    [(.status, 0x01), (.k .r1, (subkeys key).1.setWidth 8), (.k .r2, (subkeys key).2.1.setWidth 8),
      (.k .r3, (subkeys key).2.2.setWidth 8)]) ∧
  (∀ w : Word, fieldOpc w = 0x6 →
    (fieldZ w = 0#11 ∧ fieldT w = false ∧ fieldB w = 0#8 → decode w = .ok (.genkeys (fieldA w))) ∧
    (¬(fieldZ w = 0#11 ∧ fieldT w = false ∧ fieldB w = 0#8) → IllegalWord w))

/-- 43_round_function.md R142 with R140: RES is `Permute(Subst(Expand(A) ^ B))`, written out. -/
def Obligations.FroundCommandWritesItsResult : Prop :=
  (∀ r k : Byte, r.toNat < 16 → k.toNat < 64 →
    CompletesShowing (.fround r k) fun t =>
      [(.status, 0x01), (.res, (permute (subst t (expand (r.setWidth 4) ^^^ k.setWidth 6))).setWidth 8)]) ∧
  (∀ r k : Byte, 16 ≤ r.toNat ∨ 64 ≤ k.toNat → EndsWithStatus (.fround r k) 0x06) ∧
  (∀ w : Word, fieldOpc w = 0x7 → fieldT w = false →
    (fieldZ w = 0#11 → decode w = .ok (.fround (fieldA w) (fieldB w))) ∧ (fieldZ w ≠ 0#11 → IllegalWord w))

/-- 43_round_function.md R143: RES and registers E to P of step record 1; S1.L, S1.R and every other register 0. -/
def Obligations.FroundTracedCommandWritesItsTrace : Prop :=
  (∀ r k : Byte, r.toNat < 16 → k.toNat < 64 →
    CompletesShowing (.froundT r k) fun t =>
      [(.status, 0x11), (.res, (permute (subst t (expand (r.setWidth 4) ^^^ k.setWidth 6))).setWidth 8)] ++
        shownRound t .r1 (r.setWidth 4) (k.setWidth 6)) ∧
  (∀ r k : Byte, 16 ≤ r.toNat ∨ 64 ≤ k.toNat → EndsWithStatus (.froundT r k) 0x06) ∧
  (∀ w : Word, fieldOpc w = 0x7 → fieldT w = true →
    (fieldZ w = 0#11 → decode w = .ok (.froundT (fieldA w) (fieldB w))) ∧ (fieldZ w ≠ 0#11 → IllegalWord w))

/-- 44_encrypt_decrypt.md R152 with R150, R151 and 43_round_function.md R140, the rounds written out: `L_i = R_(i-1)`,
`R_i = L_(i-1) ^ F(R_(i-1), K_i)`, RES is `L3 || R3`, every other register 0. -/
def Obligations.EncryptCommandWritesItsResult : Prop :=
  (∀ (p key : Byte) (l0 r0 : Nibble), p = l0 ++ r0 → CompletesShowing (.encrypt p key) fun t =>
    let f := fun (r : Nibble) (k : Sextet) => permute (subst t (expand r ^^^ k))
    let l1 := r0
    let r1 := l0 ^^^ f r0 (subkeys key).1
    let l2 := r1
    let r2 := l1 ^^^ f r1 (subkeys key).2.1
    let l3 := r2
    let r3 := l2 ^^^ f r2 (subkeys key).2.2
    [(.status, 0x01), (.res, l3 ++ r3)]) ∧
  (∀ w : Word, fieldOpc w = 0x8 → fieldT w = false →
    (fieldZ w = 0#11 → decode w = .ok (.encrypt (fieldA w) (fieldB w))) ∧ (fieldZ w ≠ 0#11 → IllegalWord w))

/-- 44_encrypt_decrypt.md R153 with R160 and 43_round_function.md R140, the rounds written out: RES, the nine key-schedule
registers and the three step records, record j holding round j. -/
def Obligations.EncryptTracedCommandWritesItsTrace : Prop :=
  (∀ (p key : Byte) (l0 r0 kl0 kr0 : Nibble), p = l0 ++ r0 → key = kl0 ++ kr0 →
    CompletesShowing (.encryptT p key) fun t =>
      let f := fun (r : Nibble) (k : Sextet) => permute (subst t (expand r ^^^ k))
      let l1 := r0
      let r1 := l0 ^^^ f r0 (subkeys key).1
      let l2 := r1
      let r2 := l1 ^^^ f r1 (subkeys key).2.1
      let l3 := r2
      let r3 := l2 ^^^ f r2 (subkeys key).2.2
      [(.status, 0x11), (.res, l3 ++ r3)] ++ shownSchedule kl0 kr0 ++
        shownRound t .r1 r0 (subkeys key).1 ++ shownHalves .r1 l1 r1 ++
        shownRound t .r2 r1 (subkeys key).2.1 ++ shownHalves .r2 l2 r2 ++
        shownRound t .r3 r2 (subkeys key).2.2 ++ shownHalves .r3 l3 r3) ∧
  (∀ w : Word, fieldOpc w = 0x8 → fieldT w = true →
    (fieldZ w = 0#11 → decode w = .ok (.encryptT (fieldA w) (fieldB w))) ∧ (fieldZ w ≠ 0#11 → IllegalWord w))

/-- 44_encrypt_decrypt.md R155 with R154 and 43_round_function.md R140, the three steps written out: with K3, K2, K1 in this
order, `newR = R ^ F(L, K)`, `newL = L`, next `(L, R) = (newR, newL)`; RES is `L || R`, every other register 0. -/
def Obligations.DecryptCommandWritesItsResult : Prop :=
  (∀ (c key : Byte) (la ra : Nibble), c = la ++ ra → CompletesShowing (.decrypt c key) fun t =>
    let f := fun (r : Nibble) (k : Sextet) => permute (subst t (expand r ^^^ k))
    let lb := ra ^^^ f la (subkeys key).2.2
    let rb := la
    let lc := rb ^^^ f lb (subkeys key).2.1
    let rc := lb
    let ld := rc ^^^ f lc (subkeys key).1
    let rd := lc
    [(.status, 0x01), (.res, ld ++ rd)]) ∧
  (∀ w : Word, fieldOpc w = 0x9 → fieldT w = false →
    (fieldZ w = 0#11 → decode w = .ok (.decrypt (fieldA w) (fieldB w))) ∧ (fieldZ w ≠ 0#11 → IllegalWord w))

/-- 44_encrypt_decrypt.md R156 with R161 and 43_round_function.md R140, the three steps written out: RES, the nine key-schedule
registers in generation order, and the three step records, step 1 using K3, with the pair after the swap. -/
def Obligations.DecryptTracedCommandWritesItsTrace : Prop :=
  (∀ (c key : Byte) (la ra kl0 kr0 : Nibble), c = la ++ ra → key = kl0 ++ kr0 →
    CompletesShowing (.decryptT c key) fun t =>
      let f := fun (r : Nibble) (k : Sextet) => permute (subst t (expand r ^^^ k))
      let lb := ra ^^^ f la (subkeys key).2.2
      let rb := la
      let lc := rb ^^^ f lb (subkeys key).2.1
      let rc := lb
      let ld := rc ^^^ f lc (subkeys key).1
      let rd := lc
      [(.status, 0x11), (.res, ld ++ rd)] ++ shownSchedule kl0 kr0 ++
        shownRound t .r1 la (subkeys key).2.2 ++ shownHalves .r1 lb rb ++
        shownRound t .r2 lb (subkeys key).2.1 ++ shownHalves .r2 lc rc ++
        shownRound t .r3 lc (subkeys key).1 ++ shownHalves .r3 ld rd) ∧
  (∀ w : Word, fieldOpc w = 0x9 → fieldT w = true →
    (fieldZ w = 0#11 → decode w = .ok (.decryptT (fieldA w) (fieldB w))) ∧ (fieldZ w ≠ 0#11 → IllegalWord w))

/-- 41_bit_transforms.md R103 (example), 10_state.md R21: in a state that satisfies the invariant SUBST 0x25 shows 0x08. -/
def Obligations.SubstOfTheStatedEntryIsEight : Prop :=
  ∀ (s : State) (t : SBox), s.Inv → s.rom = some t →
    NextShowing (exec (.subst 0x25) s) s [(.status, 0x01), (.res, 0x08)]

/-! ### Errors and STATUS -/

/-- 60_exceptions.md R182: the table says which words end with `IllegalCommand`, which with `InvalidWidth`, and every other word
completes; there is no other way for a command to end. -/
def Obligations.ErrorTableDecidesHowACommandEnds : Prop :=
  ∀ (w : Word) (s : State) (t : SBox), s.rom = some t →
    (fieldZ w ≠ 0#11 ∨ IllegalByTable w → NextShowing (hostCommand w s) s [(.status, 0x0A)]) ∧
    (fieldZ w = 0#11 → ¬IllegalByTable w → TooWideByTable w → NextShowing (hostCommand w s) s [(.status, 0x06)]) ∧
    (fieldZ w = 0#11 → ¬IllegalByTable w → ¬TooWideByTable w → ∃ o : OutFile,
      hostCommand w s = .next (s.setOut o) ∧ o.get .status = (if fieldT w then 0x11 else 0x01))

/-- 10_state.md R28: the fields of STATUS after a command, and the values it can hold then; between
reset and the first command it reads 0x00. -/
def Obligations.StatusReportsTheLastCommand : Prop :=
  (∀ (w : Word) (s s' : State), hostCommand w s = .next s' →
    s'.out.get .status ∈ [0x01, 0x11, 0x06, 0x0A] ∧
    (statusOk (s'.out.get .status) = true ↔ ∃ i, decode w = .ok i ∧ i.wellFormed = true) ∧
    (statusErr (s'.out.get .status) = true ↔ ¬∃ i, decode w = .ok i ∧ i.wellFormed = true) ∧
    (statusEcode (s'.out.get .status) = 1#2 ↔ ∃ i, decode w = .ok i ∧ i.wellFormed = false) ∧
    (statusEcode (s'.out.get .status) = 2#2 ↔ IllegalWord w) ∧
    (statusTv (s'.out.get .status) = true ↔ fieldT w = true ∧ ∃ i, decode w = .ok i ∧ i.wellFormed = true) ∧
    (s'.out.get .status).extractLsb' 5 3 = 0) ∧
  (∀ s s' : State, perform .reset s = .next s' → s'.out.get .status = 0x00) ∧ State.reset.out.get .status = 0x00

/-- 60_exceptions.md R186 and R189: a command that ends with an error leaves every register 0 but STATUS, which holds 0x0A
for an illegal word and 0x06 otherwise, with OK and TV clear, and changes nothing else. -/
def Obligations.ErrorLeavesOnlyItsStatus : Prop :=
  ∀ (w : Word) (s s' : State), hostCommand w s = .next s' → statusErr (s'.out.get .status) = true →
    (IllegalWord w → s'.out.get .status = 0x0A) ∧ (¬IllegalWord w → s'.out.get .status = 0x06) ∧
    statusOk (s'.out.get .status) = false ∧ statusTv (s'.out.get .status) = false ∧
    (∀ n : RegNo, n ≠ 0 → s'.out.readNumber n = 0) ∧ s' = s.setOut s'.out

/-- 60_exceptions.md R187: an error is not sticky: after a command that ended with an error, the next command answers as it
would have without it. -/
def Obligations.ErrorsAreNotSticky : Prop :=
  ∀ (w w' : Word) (s s' : State), hostCommand w s = .next s' → statusErr (s'.out.get .status) = true →
    hostCommand w' s' = hostCommand w' s

/-- 60_exceptions.md R185: an illegal word ends with `IllegalCommand` whatever its operands; two too wide operands give one
`InvalidWidth`; the spec's example word 0x180000FF. -/
def Obligations.IllegalCommandHasPriority : Prop :=
  (∀ (w : Word) (s : State) (t : SBox), s.rom = some t → IllegalWord w →
    NextShowing (hostCommand w s) s [(.status, 0x0A)]) ∧
  (∀ a b : Byte, 16 ≤ a.toNat → 16 ≤ b.toNat → EndsWithStatus (.compress a b) 0x06) ∧
  (∀ a b : Byte, 16 ≤ a.toNat → 64 ≤ b.toNat →
    EndsWithStatus (.fround a b) 0x06 ∧ EndsWithStatus (.froundT a b) 0x06) ∧
  IllegalWord 0x180000FF

/-! ### The whole machine -/

/-- 20_memory.md R58, 30_encoding.md R81: when the word that waits first decodes to a command, the step is that command's
meaning in the state without that operation. -/
def Obligations.StepRunsTheDecodedCommand : Prop :=
  ∀ (s : State) (w : Word) (rest : List Event) (i : Instr), s.pending = .command w :: rest → decode w = .ok i →
    step s = exec i (s.setPending rest)

/-- The model's own (log entries 1 and 11): the step after `withFetchWord` runs the command of the word given, in the state as it
was, and the opcode-table reading of the word is that command. -/
def Obligations.FetchWordIsTheNextCommand : Prop :=
  ∀ (s : State) (w : Nat) (i : Instr), w < 2 ^ 32 → decode (BitVec.ofNat 32 w) = .ok i →
    step (s.withFetchWord 32 w) = exec i s ∧ decodeTableWord 32 w = some i

/-- 10_state.md R33 and R37: no command reads an output register, so the register file after a command is a function of the word
and the table, whatever was there before; and the host can not write a register. -/
def Obligations.CommandDependsOnItsWordAndTheSboxOnly : Prop :=
  (∀ (w : Word) (s s' : State), s.rom = s'.rom →
    (nextState? (hostCommand w s)).map State.out = (nextState? (hostCommand w s')).map State.out) ∧
  (∀ (w : Word) (s : State) (o : OutFile), hostCommand w (s.setOut o) = hostCommand w s) ∧
  (∀ (s : State) (n : Nat) (v : Byte), perform (.writeRegister n v) s = .refused .registerWrite)

/-- 20_memory.md R55: a read returns the register and changes no engine state, so it may be repeated; the same word twice leaves
the state once leaves. -/
def Obligations.ReadsChangeNothingAndCommandsAreIdempotent : Prop :=
  (∀ (n : Nat) (s : State), n < 64 →
    hostRead n s = .next (s.addReply (s.out.readNumber (BitVec.ofNat 6 n))) ∧
    (s.addReply (s.out.readNumber (BitVec.ofNat 6 n))).out = s.out ∧
    (s.addReply (s.out.readNumber (BitVec.ofNat 6 n))).rom = s.rom) ∧
  (∀ (w : Word) (s s' : State), hostCommand w s = .next s' → hostCommand w s' = .next s')

/-- 20_memory.md R58: operations take effect one at a time in arrival order, and every read returns what the latest command or
reset before it left. -/
def Obligations.ReadsReturnTheLatestCommandOrReset : Prop :=
  (∀ (s : State) (ev : Event) (rest : List Event), s.pending = ev :: rest → step s = perform ev (s.setPending rest)) ∧
  ∀ (ev : Event) (ns : List Nat) (rest : List Event) (s s' : State),
    ((∃ w, ev = .command w) ∨ ev = .reset) → (∀ n ∈ ns, n < 64) → s.pending = ev :: (ns.map Event.read ++ rest) →
    step s = .next s' →
    ∃ s'' : State, runSteps (ns.length + 1) s = .next s'' ∧ s''.pending = rest ∧ s''.out = s'.out ∧
      s''.rom = s.rom ∧ s''.replies = (ns.map fun n => s'.out.readNumber (BitVec.ofNat 6 n)).reverse ++ s.replies

/-- 70_reset_and_hazards.md R216, 60_exceptions.md R182: once the ROM holds a table every command word completes in one step,
whatever its operands. -/
def Obligations.EveryCommandCompletesOnceTheRomIsLoaded : Prop :=
  ∀ (w : Word) (s : State) (t : SBox), s.rom = some t →
    ∃ o : OutFile, hostCommand w s = .next (s.setOut o) ∧ o.get .status ≠ 0

/-- 10_state.md R20: a loaded ROM never changes, whatever the step does, and no command runs before it is loaded. -/
def Obligations.SboxNeverChangesOnceLoaded : Prop :=
  (∀ (s s' : State) (t : SBox), s.rom = some t → step s = .next s' → s'.rom = some t) ∧
  (∀ (s : State) (w : Word), s.rom = none → hostCommand w s = .refused .romNotLoaded)

/-- What the spec treats as `refuse` (93_implementation_defined.md U17, U18), and the loading of the ROM (10_state.md R20, R21; the
refusals of a second loading and of a table without the stated entry are the model's choice, log entry 5). -/
def Obligations.InputsOutsideTheSpecAreRefused : Prop :=
  (∀ (n : Nat) (s : State), 64 ≤ n → perform (.read n) s = .refused .noSuchRegister) ∧
  (∀ (n : Nat) (v : Byte) (s : State), perform (.writeRegister n v) s = .refused .registerWrite) ∧
  (∀ s : State, perform .readPort s = .refused .commandPortRead) ∧
  (∀ (t : SBox) (s : State),
    (s.rom = none → romEntry t 3#2 2#4 = 0x8#4 → perform (.loadRom t) s = .next (s.setRom t)) ∧
    (s.rom = none → romEntry t 3#2 2#4 ≠ 0x8#4 → perform (.loadRom t) s = .refused .romLacksStatedEntry) ∧
    (s.rom ≠ none → perform (.loadRom t) s = .refused .romAlreadyLoaded))

/-- 70_reset_and_hazards.md R210: `RESET` sets every output register to 0 and leaves the ROM; the register file after it differs
from that after any command. -/
def Obligations.ResetClearsEveryRegister : Prop :=
  (∀ (s : State) (rest : List Event), s.pending = .reset :: rest → NextShowing (step s) (s.setPending rest) []) ∧
  (∀ (w : Word) (s s' s'' : State), hostCommand w s = .next s' → perform .reset s' = .next s'' → s''.out ≠ s'.out)

/-- 10_state.md R39: after reset every register number reads 0 and the ROM holds `SBOX`. -/
def Obligations.ResetStateReadsZero : Prop :=
  (∀ n : RegNo, State.reset.out.readNumber n = 0) ∧ State.reset.rom = some Config.sbox

/-- 10_state.md R32: a reserved number reads 0 at all times, in every state; the other numbers, and only they, are those of the
named registers. -/
def Obligations.ReservedNumbersReadZero : Prop :=
  (∀ (o : OutFile) (n : RegNo), isReservedNumber n = true → o.readNumber n = 0) ∧
  (∀ n : RegNo, isReservedNumber n = false ↔ ∃ reg : OutReg, reg.number = n) ∧
  (∀ (o : OutFile) (reg : OutReg) (v : Byte) (n : RegNo), isReservedNumber n = true → (o.write reg v).readNumber n = 0)

/-- 44_encrypt_decrypt.md R158: a traced command shows the same RES as the plain command with the same operands. -/
def Obligations.TracedCommandsShowThePlainResult : Prop :=
  ∀ (a b : Byte) (s p q : State),
    ((exec (.fround a b) s = .next p ∧ exec (.froundT a b) s = .next q) ∨
      (exec (.encrypt a b) s = .next p ∧ exec (.encryptT a b) s = .next q) ∨
      (exec (.decrypt a b) s = .next p ∧ exec (.decryptT a b) s = .next q)) →
    p.out.get .res = q.out.get .res

/-- 44_encrypt_decrypt.md R157 at the command interface: a host that issues ENCRYPT p, key, reads RES, and issues DECRYPT of it
with the same key, reads p again, for every table in the ROM. -/
def Obligations.EncryptThenDecryptReturnsThePlaintext : Prop :=
  ∀ (s : State) (t : SBox) (p key : Byte), s.rom = some t →
    ∃ s' s'' : State, exec (.encrypt p key) s = .next s' ∧
      exec (.decrypt (s'.out.readNumber 0x01) key) s' = .next s'' ∧ s''.out.readNumber 0x01 = p

/-- The invariant holds at reset (10_state.md R39). -/
def Obligations.InvariantHoldsAtReset : Prop := State.reset.Inv

/-- Every step keeps the invariant, from every state that satisfies it: the ROM keeps the stated entry (10_state.md R21), STATUS
one of its five values (R28), narrow registers zeros above their content (R27), no result without success
(60_exceptions.md R189), no trace without TV. -/
def Obligations.EveryStepKeepsTheInvariant : Prop :=
  ∀ s s' : State, s.Inv → step s = .next s' → s'.Inv

/-- 20_memory.md R64: a step of one instance is what that instance does alone and leaves every other instance as it was, and steps
of two instances may be taken in either order. -/
def Obligations.EngineInstancesAreIndependent : Prop :=
  (∀ (p p' : Platform) (k : Nat) (s : State), p[k]? = some s → stepAt k p = .next p' →
    (∀ j : Nat, j ≠ k → p'[j]? = p[j]?) ∧ (∃ s' : State, step s = .next s' ∧ p'[k]? = some s')) ∧
  (∀ (p p1 p2 : Platform) (j k : Nat), j ≠ k → stepAt j p = .next p1 → stepAt k p1 = .next p2 →
    ∃ q : Platform, stepAt k p = .next q ∧ stepAt j q = .next p2)
end

