-- ==== Sys2Proof/Laws/Cipher.lean ====
section
/-! SUPPORT. Halves and blocks, and the traced runs beside the plain functions: what the records of a traced run hold. -/

namespace Sys2Proof.Machine

@[simp] theorem highHalf_append : ∀ l r : Nibble, highHalf (l ++ r) = l := by decide
@[simp] theorem lowHalf_append : ∀ l r : Nibble, lowHalf (l ++ r) = r := by decide

/-- Splitting undoes joining (00_scope.md R3, R4). -/
@[simp] theorem splitBlock_joinBlock (s : RoundState) : splitBlock (joinBlock s) = s := by
  simp [splitBlock, joinBlock]

/-- Joining undoes splitting (00_scope.md R3, R4). -/
@[simp] theorem joinBlock_splitBlock : ∀ b : Byte, joinBlock (splitBlock b) = b := by decide

/-- The record of an encryption step holds the state of the plain round (44_encrypt_decrypt.md R160). -/
@[simp] theorem halves_encRecord (t : SBox) (s : RoundState) (k : Sextet) : (encRecord t s k).halves = encStep t s k := rfl

/-- The record of a decryption step holds the pair of the plain step (44_encrypt_decrypt.md R161). -/
@[simp] theorem halves_decRecord (t : SBox) (s : RoundState) (k : Sextet) : (decRecord t s k).halves = decStep t s k := rfl

/-- The key schedule holds the subkeys (42_key_schedule.md R124). -/
theorem subkeys_eq_keySchedule (key : Byte) :
    subkeys key = ((keySchedule key).1.k, (keySchedule key).2.1.k, (keySchedule key).2.2.k) := rfl

end Sys2Proof.Machine
end

