-- ==== Sys2Proof/Laws/State.lean ====
section
/-! SUPPORT. One lemma per field per update of State (LEAN_PROOF_STRATEGIES section 2.3): no later proof unfolds an update. -/

namespace Sys2Proof.Machine

@[simp] theorem State.setOut_rom (s : State) (o : OutFile) : (s.setOut o).rom = s.rom := rfl
@[simp] theorem State.setOut_out (s : State) (o : OutFile) : (s.setOut o).out = o := rfl
@[simp] theorem State.setOut_pending (s : State) (o : OutFile) : (s.setOut o).pending = s.pending := rfl
@[simp] theorem State.setOut_replies (s : State) (o : OutFile) : (s.setOut o).replies = s.replies := rfl
@[simp] theorem State.setOut_setOut (s : State) (o o' : OutFile) : (s.setOut o).setOut o' = s.setOut o' := rfl

@[simp] theorem State.setRom_rom (s : State) (t : SBox) : (s.setRom t).rom = some t := rfl
@[simp] theorem State.setRom_out (s : State) (t : SBox) : (s.setRom t).out = s.out := rfl
@[simp] theorem State.setRom_pending (s : State) (t : SBox) : (s.setRom t).pending = s.pending := rfl
@[simp] theorem State.setRom_replies (s : State) (t : SBox) : (s.setRom t).replies = s.replies := rfl

@[simp] theorem State.setPending_rom (s : State) (q : List Event) : (s.setPending q).rom = s.rom := rfl
@[simp] theorem State.setPending_out (s : State) (q : List Event) : (s.setPending q).out = s.out := rfl
@[simp] theorem State.setPending_pending (s : State) (q : List Event) : (s.setPending q).pending = q := rfl
@[simp] theorem State.setPending_replies (s : State) (q : List Event) : (s.setPending q).replies = s.replies := rfl

@[simp] theorem State.addReply_rom (s : State) (v : Byte) : (s.addReply v).rom = s.rom := rfl
@[simp] theorem State.addReply_out (s : State) (v : Byte) : (s.addReply v).out = s.out := rfl
@[simp] theorem State.addReply_pending (s : State) (v : Byte) : (s.addReply v).pending = s.pending := rfl
@[simp] theorem State.addReply_replies (s : State) (v : Byte) : (s.addReply v).replies = v :: s.replies := rfl

@[simp] theorem State.reset_rom : State.reset.rom = some Sys2Proof.Config.sbox := rfl
@[simp] theorem State.reset_out : State.reset.out = OutFile.cleared := rfl
@[simp] theorem State.reset_pending : State.reset.pending = [] := rfl
@[simp] theorem State.reset_replies : State.reset.replies = [] := rfl

end Sys2Proof.Machine
end

