-- ==== Sys2Proof/Laws/Ops.lean ====
section
/-! SUPPORT. What the shared operations can do, said once: reads and writes of the register file, the common execution rule,
HostRead, the loading of the ROM. -/

namespace Sys2Proof.Machine

/-- A register reads what was last written to it (00_scope.md section 5.3). -/
theorem OutFile.get_write_same (o : OutFile) (reg : OutReg) (v : Byte) : (o.write reg v).get reg = v := by
  cases reg with
  | status => rfl
  | res => rfl
  | _ i => cases i <;> rfl

/-- A write leaves every other register alone. -/
theorem OutFile.get_write_other (o : OutFile) {reg other : OutReg} (v : Byte) (h : other ≠ reg) :
    (o.write reg v).get other = o.get other := by
  cases reg <;> cases other <;> first
    | rfl
    | (exact absurd rfl h)
    | (rename_i i; cases i <;> rfl)
    | (rename_i i j; cases i <;> cases j <;> first | rfl | (exact absurd rfl h))

/-- Both at once. -/
theorem OutFile.get_write (o : OutFile) (reg other : OutReg) (v : Byte) :
    (o.write reg v).get other = if other = reg then v else o.get other := by
  split
  · next h => rw [h, get_write_same]
  · next h => exact get_write_other o v h

/-- Every register of the cleared file is 0 (30_encoding.md R81 step 1). -/
theorem OutFile.get_cleared (reg : OutReg) : OutFile.cleared.get reg = 0 := by
  cases reg with
  | status => rfl
  | res => rfl
  | _ i => cases i <;> rfl

/-- Two files with the same 35 registers are equal. -/
theorem OutFile.ext_get {o o' : OutFile} (h : ∀ reg, o.get reg = o'.get reg) : o = o' := by
  obtain ⟨st, rs, ⟨a1, a2, a3⟩, ⟨b1, b2, b3⟩, ⟨c1, c2, c3⟩, ⟨d1, d2, d3, d4, d5, d6, d7, d8⟩,
    ⟨e1, e2, e3, e4, e5, e6, e7, e8⟩, ⟨f1, f2, f3, f4, f5, f6, f7, f8⟩⟩ := o
  have h0 := h .status
  have h1 := h .res
  have k1 := fun i => h (.kl i)
  have k2 := fun i => h (.kr i)
  have k3 := fun i => h (.k i)
  have s1 := fun i => h (.e i)
  have s2 := fun i => h (.x i)
  have s3 := fun i => h (.row i)
  have s4 := fun i => h (.col i)
  have s5 := fun i => h (.sv i)
  have s6 := fun i => h (.p i)
  have s7 := fun i => h (.l i)
  have s8 := fun i => h (.r i)
  have hs : ∀ {q : Round → Prop}, (∀ i, q i) → q .r1 ∧ q .r2 ∧ q .r3 := fun hq => ⟨hq _, hq _, hq _⟩
  have k1 := hs k1
  have k2 := hs k2
  have k3 := hs k3
  have s1 := hs s1
  have s2 := hs s2
  have s3 := hs s3
  have s4 := hs s4
  have s5 := hs s5
  have s6 := hs s6
  have s7 := hs s7
  have s8 := hs s8
  simp only [OutFile.get, OutFile.keyRegs, OutFile.stepRegs] at h0 h1 k1 k2 k3 s1 s2 s3 s4 s5 s6 s7 s8
  simp only [h0, h1, k1, k2, k3, s1, s2, s3, s4, s5, s6, s7, s8]

/-- The number of a register names it (10_state.md R27). -/
theorem regOfNumber_number (reg : OutReg) : regOfNumber reg.number = some reg := by
  cases reg with
  | status => rfl
  | res => rfl
  | _ i => cases i <;> rfl

/-- A read by number of an assigned register is a read by name. -/
theorem OutFile.readNumber_number (o : OutFile) (reg : OutReg) : o.readNumber reg.number = o.get reg := by
  simp only [OutFile.readNumber, regOfNumber_number]

/-- The common execution rule once the ROM holds a table: an error entry or a completion (30_encoding.md R81). -/
theorem runCommand_loaded {s : State} {t : SBox} (h : s.rom = some t) (traced : Bool) (outputs : Option (SBox → OutFile)) :
    runCommand traced outputs s = .next (s.setOut (match outputs with
      | none => OutFile.cleared.write .status (statusError .invalidWidth)
      | some f => (f t).write .status (statusDone traced))) := by
  unfold runCommand
  rw [h]
  cases outputs <;> rfl

/-- Before the ROM is loaded every command is refused (93_implementation_defined.md U22). -/
theorem runCommand_unloaded {s : State} (h : s.rom = none) (traced : Bool) (outputs : Option (SBox → OutFile)) :
    runCommand traced outputs s = .refused .romNotLoaded := by
  unfold runCommand
  rw [h]

/-- Everything the common execution rule can do, when it answers a next state. -/
theorem runCommand_next {s s' : State} {traced : Bool} {outputs : Option (SBox → OutFile)}
    (h : runCommand traced outputs s = .next s') :
    ∃ t, s.rom = some t ∧
      ((outputs = none ∧ s' = takeError .invalidWidth s) ∨ ∃ f, outputs = some f ∧ s' = completeWith traced (f t) s) := by
  unfold runCommand at h
  cases hr : s.rom with
  | none => rw [hr] at h; cases h
  | some t =>
    rw [hr] at h
    refine ⟨t, rfl, ?_⟩
    cases outputs with
    | none => exact .inl ⟨rfl, by cases h; rfl⟩
    | some f => exact .inr ⟨f, rfl, by cases h; rfl⟩

/-- An illegal word, once the ROM holds a table (60_exceptions.md R181, R186). -/
theorem runIllegal_loaded {s : State} {t : SBox} (h : s.rom = some t) :
    runIllegal s = .next (takeError .illegalCommand s) := by
  unfold runIllegal
  rw [h]

/-- Everything an illegal word can do, when it answers a next state. -/
theorem runIllegal_next {s s' : State} (h : runIllegal s = .next s') :
    (∃ t, s.rom = some t) ∧ s' = takeError .illegalCommand s := by
  unfold runIllegal at h
  cases hr : s.rom with
  | none => rw [hr] at h; cases h
  | some t => rw [hr] at h; exact ⟨⟨t, rfl⟩, by cases h; rfl⟩

/-- Everything a read can do, when it answers a next state (20_memory.md R55). -/
theorem hostRead_next {n : Nat} {s s' : State} (h : hostRead n s = .next s') :
    n < 64 ∧ s' = s.addReply (s.out.readNumber (BitVec.ofNat 6 n)) := by
  unfold hostRead at h
  split at h
  · next hn => exact ⟨hn, by cases h; rfl⟩
  · cases h

/-- Everything a loading of the ROM can do, when it answers a next state (10_state.md R20, R21). -/
theorem loadRom_next {t : SBox} {s s' : State} (h : loadRom t s = .next s') :
    s.rom = none ∧ hasStatedEntry t = true ∧ s' = s.setRom t := by
  unfold loadRom at h
  cases hr : s.rom with
  | some u => rw [hr] at h; cases h
  | none =>
    rw [hr] at h
    dsimp only at h
    split at h
    · next he => exact ⟨rfl, he, by cases h; rfl⟩
    · cases h

/-- A field inside the declared width passes the width check as its low bits (30_encoding.md R75). -/
theorem acceptWidth_of_lt {width : Nat} {f : Byte} (h : f.toNat < 2 ^ width) :
    acceptWidth width f = some (f.setWidth width) := if_pos h

/-- A field outside the declared width is rejected (30_encoding.md R75). -/
theorem acceptWidth_of_ge {width : Nat} {f : Byte} (h : 2 ^ width ≤ f.toNat) : acceptWidth width f = none :=
  if_neg (Nat.not_lt.mpr h)

/-- An 8-bit operand always passes the width check, unchanged (30_encoding.md R75). -/
theorem acceptWidth_eight (f : Byte) : acceptWidth 8 f = some f := by
  rw [acceptWidth_of_lt f.isLt, BitVec.setWidth_eq]

end Sys2Proof.Machine
end

