-- ==== Sys2Proof/Laws/Commands.lean ====
section
/-! SUPPORT. Every command is the common execution rule on outputs of its own, and how a register file is compared with a
list of registers. -/

namespace Sys2Proof.Machine

/-- The table and the arithmetic of the register numbers agree (10_state.md R27 and "Register number arithmetic"). -/
theorem regOfNumber_eq_some_iff {n : RegNo} {reg : OutReg} : regOfNumber n = some reg ↔ reg.number = n := by
  constructor
  · have table : ∀ n : RegNo, ((regOfNumber n).all fun reg => reg.number == n) = true := by decide +kernel
    intro h
    have := table n
    rw [h] at this
    simpa using this
  · rintro rfl
    exact regOfNumber_number reg

/-- Different registers have different numbers (10_state.md R27: no aliases). -/
theorem OutReg.number_inj {reg reg' : OutReg} (h : reg.number = reg'.number) : reg = reg' := by
  have := regOfNumber_number reg
  rw [h, regOfNumber_number] at this
  exact (Option.some.inj this).symm

/-- A register file shows a list exactly if every named register reads as the list says. -/
theorem OutFile.showsExactly_of_get {o : OutFile} {shown : List (OutReg × Byte)}
    (h : ∀ reg, o.get reg = (shown.lookup reg).getD 0) : o.ShowsExactly shown := by
  intro n
  unfold OutFile.readNumber shownAt
  cases hn : regOfNumber n with
  | none =>
    have absent : shown.find? (fun entry => entry.1.number == n) = none := by
      rw [List.find?_eq_none]
      intro entry _ he
      have := regOfNumber_eq_some_iff.mpr (beq_iff_eq.mp he)
      rw [hn] at this
      cases this
    simp only [absent]
  | some reg =>
    obtain rfl := regOfNumber_eq_some_iff.mp hn
    simp only [h]
    clear h hn
    induction shown with
    | nil => rfl
    | cons entry rest ih =>
      obtain ⟨other, v⟩ := entry
      by_cases he : reg = other
      · subst he
        simp
      · have hne : (other.number == reg.number) = false := beq_false_of_ne fun e => he (OutReg.number_inj e).symm
        rw [List.find?_cons, List.lookup_cons]
        simp only [hne, beq_false_of_ne he]
        exact ih

/-- A result alone, with its STATUS (30_encoding.md R81, R82). -/
theorem get_resultOnly {n : Nat} (v : BitVec n) (reg : OutReg) :
    (resultOnly v).get reg = if reg = .res then place v else 0 := by
  rw [resultOnly, OutFile.get_write, OutFile.get_cleared]

/-- The width check fails exactly for the fields outside the width (30_encoding.md R75). -/
theorem acceptWidth_eq_none {width : Nat} {f : Byte} : acceptWidth width f = none ↔ ¬f.toNat < 2 ^ width := by
  unfold acceptWidth
  split <;> simp [*]

/-- Every command follows the common execution rule, on outputs that are missing exactly if an operand is too wide
(30_encoding.md R81, 60_exceptions.md R182). -/
theorem exec_eq_runCommand (i : Instr) : ∃ outputs : Option (SBox → OutFile),
    (∀ s, exec i s = runCommand i.traced outputs s) ∧ (outputs = none ↔ i.wellFormed = false) := by
  have pair (width : Nat) (a b : Byte) {α : Type} (f : BitVec 4 → BitVec width → α) :
      ((acceptWidth 4 a).bind fun u => (acceptWidth width b).map fun v => f u v) = none ↔
        ¬(a.toNat < 2 ^ 4 ∧ b.toNat < 2 ^ width) := by
    by_cases ha : a.toNat < 2 ^ 4
    · rw [acceptWidth_of_lt ha, Option.bind_some, Option.map_eq_none_iff, acceptWidth_eq_none, not_iff_not]
      exact ⟨fun hb => ⟨ha, hb⟩, fun hab => hab.2⟩
    · rw [acceptWidth_eq_none.mpr ha, Option.bind_none]
      exact ⟨fun _ hab => ha hab.1, fun _ => rfl⟩
  cases i
  case expand a => exact ⟨_, fun _ => rfl, by simp [acceptWidth_eq_none, Instr.wellFormed]⟩
  case subst a => exact ⟨_, fun _ => rfl, by simp [acceptWidth_eq_none, Instr.wellFormed]⟩
  case permute a => exact ⟨_, fun _ => rfl, by simp [acceptWidth_eq_none, Instr.wellFormed]⟩
  case rotl a s => exact ⟨_, fun _ => rfl, by simp [acceptWidth_eq_none, Instr.wellFormed]⟩
  case compress kl kr => exact ⟨_, fun _ => rfl, by rw [pair]; simp [Instr.wellFormed]⟩
  case genkeys key => exact ⟨_, fun _ => rfl, by simp [acceptWidth_eight, Instr.wellFormed]⟩
  case fround r k => exact ⟨_, fun _ => rfl, by rw [pair]; simp [Instr.wellFormed]⟩
  case froundT r k => exact ⟨_, fun _ => rfl, by rw [pair]; simp [Instr.wellFormed]⟩
  case encrypt p key => exact ⟨_, fun _ => rfl, by simp [acceptWidth_eight, Instr.wellFormed]⟩
  case encryptT p key => exact ⟨_, fun _ => rfl, by simp [acceptWidth_eight, Instr.wellFormed]⟩
  case decrypt c key => exact ⟨_, fun _ => rfl, by simp [acceptWidth_eight, Instr.wellFormed]⟩
  case decryptT c key => exact ⟨_, fun _ => rfl, by simp [acceptWidth_eight, Instr.wellFormed]⟩

end Sys2Proof.Machine
end

