-- ==== Sys2Proof/Laws/Decode.lean ====
section
/-! SUPPORT. The fields of an assembled word, and what a word that decodes looks like: later proofs about words use these and
do not take words apart bit by bit. -/

namespace Sys2Proof

/-- The fields of a word assembled from fields (30_encoding.md R70, R73). -/
theorem fields_assembleWord (o : BitVec 4) (t : Bool) (b a : Byte) :
    fieldOpc (assembleWord o t b a) = o ∧ fieldT (assembleWord o t b a) = t ∧ fieldZ (assembleWord o t b a) = 0#11 ∧
      fieldB (assembleWord o t b a) = b ∧ fieldA (assembleWord o t b a) = a := by
  refine ⟨?_, ?_, ?_, ?_, ?_⟩
  · apply BitVec.eq_of_getLsbD_eq
    intro i hi
    simp only [fieldOpc, assembleWord, BitVec.getLsbD_extractLsb', BitVec.getLsbD_append]
    interval_cases i <;> simp
  · simp only [fieldT, assembleWord, BitVec.getLsbD_append]
    simp
  · apply BitVec.eq_of_getLsbD_eq
    intro i hi
    simp only [fieldZ, assembleWord, BitVec.getLsbD_extractLsb', BitVec.getLsbD_append]
    interval_cases i <;> simp
  · apply BitVec.eq_of_getLsbD_eq
    intro i hi
    simp only [fieldB, assembleWord, BitVec.getLsbD_extractLsb', BitVec.getLsbD_append]
    interval_cases i <;> simp
  · apply BitVec.eq_of_getLsbD_eq
    intro i hi
    simp only [fieldA, assembleWord, BitVec.getLsbD_extractLsb', BitVec.getLsbD_append]
    interval_cases i <;> simp

/-- Two words with the same five fields are equal (30_encoding.md R70: the fields cover all 32 bits). -/
theorem word_eq_of_fields {w w' : Word} (hOpc : fieldOpc w = fieldOpc w') (hT : fieldT w = fieldT w')
    (hZ : fieldZ w = fieldZ w') (hB : fieldB w = fieldB w') (hA : fieldA w = fieldA w') : w = w' := by
  apply BitVec.eq_of_getLsbD_eq
  intro i hi
  by_cases h8 : i < 8
  · have := congrArg (fun v => v.getLsbD i) hA
    simpa [fieldA, BitVec.getLsbD_extractLsb', h8] using this
  by_cases h16 : i < 16
  · have := congrArg (fun v => v.getLsbD (i - 8)) hB
    simp only [fieldB, BitVec.getLsbD_extractLsb', (by omega : i - 8 < 8), (by omega : 8 + (i - 8) = i)] at this
    simpa using this
  by_cases h27 : i < 27
  · have := congrArg (fun v => v.getLsbD (i - 16)) hZ
    simp only [fieldZ, BitVec.getLsbD_extractLsb', (by omega : i - 16 < 11), (by omega : 16 + (i - 16) = i)] at this
    simpa using this
  by_cases h28 : i < 28
  · obtain rfl : i = 27 := by omega
    exact hT
  · have := congrArg (fun v => v.getLsbD (i - 28)) hOpc
    simp only [fieldOpc, BitVec.getLsbD_extractLsb', (by omega : i - 28 < 4), (by omega : 28 + (i - 28) = i)] at this
    simpa using this

/-- A word that decodes has `Z` zero, and its other fields are those of the command (30_encoding.md R76). -/
theorem fields_of_decode {w : Word} {i : Instr} (h : decode w = .ok i) :
    fieldZ w = 0#11 ∧ i.opc = fieldOpc w ∧ i.traced = fieldT w ∧ i.operandB = fieldB w ∧ i.operandA = fieldA w := by
  unfold decode at h
  split at h
  case isFalse => cases h
  rename_i hz
  have ho : fieldOpc w = BitVec.ofNat 4 (fieldOpc w).toNat := by simp
  rw [ho]
  revert h
  generalize (fieldOpc w).toNat = o
  intro h
  unfold decodeOpc at h
  split at h <;> (try simp only [decodeOne, decodeTwo, decodeTraced] at h) <;> (try split at h) <;> (try split at h) <;>
    cases h <;> simp_all [Instr.opc, Instr.traced, Instr.operandA, Instr.operandB]

end Sys2Proof
end

