-- ==== Sys2Proof/Laws/PerInstr.lean ====
section
/-! SUPPORT. A statement made per command: the fields of its encoding (30_encoding.md R70, R71, R72, R74). -/

namespace Sys2Proof.Laws.EncodedFields

/-- The five fields of the word of a command. -/
def Statement (i : Instr) : Prop :=
  fieldOpc (encode i) = i.opc ∧ fieldT (encode i) = i.traced ∧ fieldZ (encode i) = 0#11 ∧
    fieldB (encode i) = i.operandB ∧ fieldA (encode i) = i.operandA

theorem expand (a : Byte) : Statement (.expand a) := fields_assembleWord _ _ _ _
theorem subst (a : Byte) : Statement (.subst a) := fields_assembleWord _ _ _ _
theorem permute (a : Byte) : Statement (.permute a) := fields_assembleWord _ _ _ _
theorem rotl (a s : Byte) : Statement (.rotl a s) := fields_assembleWord _ _ _ _
theorem compress (kl kr : Byte) : Statement (.compress kl kr) := fields_assembleWord _ _ _ _
theorem genkeys (key : Byte) : Statement (.genkeys key) := fields_assembleWord _ _ _ _
theorem fround (r k : Byte) : Statement (.fround r k) := fields_assembleWord _ _ _ _
theorem froundT (r k : Byte) : Statement (.froundT r k) := fields_assembleWord _ _ _ _
theorem encrypt (p key : Byte) : Statement (.encrypt p key) := fields_assembleWord _ _ _ _
theorem encryptT (p key : Byte) : Statement (.encryptT p key) := fields_assembleWord _ _ _ _
theorem decrypt (c key : Byte) : Statement (.decrypt c key) := fields_assembleWord _ _ _ _
theorem decryptT (c key : Byte) : Statement (.decryptT c key) := fields_assembleWord _ _ _ _

end Sys2Proof.Laws.EncodedFields
end

