-- ==== Sys2Proof/Laws/Step.lean ====
section
/-! SUPPORT. What a step, several steps and a platform turn can do, said once. -/

namespace Sys2Proof.Machine

/-- Everything a step can do, when it answers a next state: nothing waited, or the first operation took effect. -/
theorem step_next {s s' : State} (h : step s = .next s') :
    (s.pending = [] ∧ s' = s) ∨
      ∃ ev rest, s.pending = ev :: rest ∧ perform ev (s.setPending rest) = .next s' := by
  unfold step takeNext at h
  cases hp : s.pending with
  | nil => rw [hp] at h; cases h; exact .inl ⟨rfl, rfl⟩
  | cons ev rest => rw [hp] at h; exact .inr ⟨ev, rest, rfl, h⟩

/-- A step with no operation waiting changes nothing (log entry 3). -/
theorem step_idle {s : State} (h : s.pending = []) : step s = .next s := by
  unfold step takeNext
  rw [h]

/-- One step, then the others. -/
theorem runSteps_succ {k : Nat} {s s' : State} (h : step s = .next s') : runSteps (k + 1) s = runSteps k s' := by
  rw [runSteps, h]

/-- A platform turn answers a next state exactly if its instance does. -/
theorem stepAt_next_iff {p p' : Platform} {k : Nat} :
    stepAt k p = .next p' ↔ ∃ s s', p[k]? = some s ∧ step s = .next s' ∧ p' = p.set k s' := by
  unfold stepAt
  cases hk : p[k]? with
  | none => simp
  | some s =>
    constructor
    · intro h
      cases hs : step s with
      | next s' => simp only [hs] at h; cases h; exact ⟨s, s', rfl, hs, rfl⟩
      | fault r => simp only [hs] at h; cases h
      | refused r => simp only [hs] at h; cases h
    · rintro ⟨u, s', h1, h2, rfl⟩
      cases h1
      simp only [h2]

end Sys2Proof.Machine
end

