-- ==== Sys2Proof/Tests/Slice0.lean ====
section
/-! SUPPORT. The model's own tests. Expected values come from spec/: the words of 30_encoding.md R79, the examples of the
command rules (41 to 44) and the vectors of 95_test_vectors.md; each test names its source. Then one witness for every
statement that has hypotheses: concrete values that meet them together. -/

namespace Sys2Proof.Tests

open Sys2Proof Sys2Proof.Machine

/-! ### Operand widths (60_exceptions.md R182): the largest value inside, the smallest outside, for each check -/

theorem test_wellFormed_expand : (Instr.expand 0x0F).wellFormed = true ∧ (Instr.expand 0x10).wellFormed = false := by decide
theorem test_wellFormed_subst : (Instr.subst 0x3F).wellFormed = true ∧ (Instr.subst 0x40).wellFormed = false := by decide
theorem test_wellFormed_permute : (Instr.permute 0x0F).wellFormed = true ∧ (Instr.permute 0x10).wellFormed = false := by decide
theorem test_wellFormed_rotl :
    (Instr.rotl 0x0F 0xFF).wellFormed = true ∧ (Instr.rotl 0x10 0x00).wellFormed = false := by decide
theorem test_wellFormed_compress : (Instr.compress 0x0F 0x0F).wellFormed = true ∧
    (Instr.compress 0x10 0x0F).wellFormed = false ∧ (Instr.compress 0x0F 0x10).wellFormed = false := by decide
theorem test_wellFormed_fround : (Instr.fround 0x0F 0x3F).wellFormed = true ∧
    (Instr.fround 0x10 0x3F).wellFormed = false ∧ (Instr.fround 0x0F 0x40).wellFormed = false := by decide
theorem test_wellFormed_froundT : (Instr.froundT 0x0F 0x3F).wellFormed = true ∧
    (Instr.froundT 0x10 0x3F).wellFormed = false ∧ (Instr.froundT 0x0F 0x40).wellFormed = false := by decide

/-! ### Decoding: the words of the table of 30_encoding.md R79, bit by bit from the patterns of R76 -/

theorem test_decode_expand : decode 0b0001_0_00000000000_00000000_00001100#32 = .ok (.expand 0x0C) := rfl
theorem test_decode_subst : decode 0b0010_0_00000000000_00000000_00100101#32 = .ok (.subst 0x25) := rfl
theorem test_decode_permute : decode 0b0011_0_00000000000_00000000_00001000#32 = .ok (.permute 0x08) := rfl
theorem test_decode_rotl : decode 0b0100_0_00000000000_00000001_00000110#32 = .ok (.rotl 0x06 0x01) := rfl
theorem test_decode_compress : decode 0b0101_0_00000000000_00000101_00000011#32 = .ok (.compress 0x03 0x05) := rfl
theorem test_decode_genkeys : decode 0b0110_0_00000000000_00000000_01101010#32 = .ok (.genkeys 0x6A) := rfl
theorem test_decode_fround : decode 0b0111_0_00000000000_00110011_00001100#32 = .ok (.fround 0x0C 0x33) := rfl
theorem test_decode_froundT : decode 0b0111_1_00000000000_00110011_00001100#32 = .ok (.froundT 0x0C 0x33) := rfl
theorem test_decode_encrypt : decode 0b1000_0_00000000000_01101010_01011100#32 = .ok (.encrypt 0x5C 0x6A) := rfl
theorem test_decode_encryptT : decode 0b1000_1_00000000000_01101010_01011100#32 = .ok (.encryptT 0x5C 0x6A) := rfl
theorem test_decode_decrypt : decode 0b1001_0_00000000000_01101010_00000110#32 = .ok (.decrypt 0x06 0x6A) := rfl
theorem test_decode_decryptT : decode 0b1001_1_00000000000_01101010_00000110#32 = .ok (.decryptT 0x06 0x6A) := rfl

/-- 30_encoding.md R71: the all-zero word and the first opcode above the assigned ones. -/
theorem test_decode_reserved_opcode :
    decode 0x00000000 = .error .reservedOpcode ∧ decode 0xA0000000 = .error .reservedOpcode := ⟨rfl, rfl⟩

/-- 30_encoding.md R73: the lowest and the highest bit of `Z`. -/
theorem test_decode_reserved_bits :
    decode 0x80016A5C = .error .reservedBits ∧ decode 0x84006A5C = .error .reservedBits := ⟨rfl, rfl⟩

/-- 30_encoding.md R72, 60_exceptions.md R185: T on EXPAND, even with a too wide operand. -/
theorem test_decode_no_traced_form : decode 0x180000FF = .error .noTracedForm := rfl

/-- 30_encoding.md R74: B not zero on GENKEYS. -/
theorem test_decode_unused_operand : decode 0x6000016A = .error .unusedOperand := rfl

/-- 30_encoding.md R79: the encoder gives the words of the table back. -/
theorem test_encode : encode (.decryptT 0x06 0x6A) = 0x98006A06 ∧ encode (.rotl 0x06 0x01) = 0x40000106 := by decide

/-- 30_encoding.md R79: hexadecimal, decimal and binary operands, a comment, an empty line. -/
theorem test_assembler_words :
    (assembleLine "ENCRYPT.T 0x5C, 0x6A ; traced").toOption = some (some 0x88006A5C) ∧
    (assembleLine "ROTL 0b0110, 1").toOption = some (some 0x40000106) ∧
    (assembleLine "  ; a comment line").toOption = some none := by decide +kernel

/-- 30_encoding.md R79: no traced GENKEYS, no pseudo-instruction, no operand above 255. -/
theorem test_assembler_errors :
    (assembleLine "GENKEYS.T 0x6A").toOption = none ∧ (assembleLine "NOP").toOption = none ∧
    (assembleLine "EXPAND 256").toOption = none := by decide +kernel

/-! ### The commands, each as one step from a state whose register file holds old values -/

/-- The ROM loaded, old values in RES, K1 and S3.R. -/
def dirty : State :=
  State.reset.setOut (((OutFile.cleared.write .res 0xFF).write (.k .r1) 0x3F).write (.r .r3) 0x0F)

/-- What registers read after a command in that state. -/
def after (i : Instr) (regs : List OutReg) : Option (List Byte) :=
  (nextState? (exec i dirty)).map fun s => regs.map s.out.get

/-- What registers read after a step that takes a command word. -/
def afterWord (w : Word) (regs : List OutReg) : Option (List Byte) :=
  (nextState? (step (dirty.setPending [.command w]))).map fun s => regs.map s.out.get

/-- 41_bit_transforms.md R101 example. -/
theorem test_expand : after (.expand 0x0C) [.status, .res, .k .r1, .r .r3] = some [0x01, 0x0B, 0, 0] := by decide
/-- 41_bit_transforms.md R101 corner case: the smallest rejected value. -/
theorem test_expand_too_wide : after (.expand 0x10) [.status, .res, .k .r1] = some [0x06, 0, 0] := by decide
/-- 41_bit_transforms.md R103 example. -/
theorem test_subst : after (.subst 0x25) [.status, .res] = some [0x01, 0x08] := by decide
/-- 41_bit_transforms.md R103 corner cases: `SBOX[1][0]` (SBOX-dependent) and the smallest rejected value. -/
theorem test_subst_corners : after (.subst 0x01) [.res] = some [0x00] ∧ after (.subst 0x20) [.res] = some [0x04] ∧
    after (.subst 0x40) [.status, .res] = some [0x06, 0] := by decide
/-- 41_bit_transforms.md R105 example. -/
theorem test_permute : after (.permute 0x08) [.status, .res] = some [0x01, 0x04] := by decide
/-- 42_key_schedule.md R121 example. -/
theorem test_rotl : after (.rotl 0x06 1) [.status, .res] = some [0x01, 0x0C] := by decide
/-- 42_key_schedule.md R121 corner cases: 255 rotates by 3, 252 by 0. -/
theorem test_rotl_long : after (.rotl 0x06 255) [.res] = some [0x03] ∧ after (.rotl 0x06 252) [.res] = some [0x06] := by decide
/-- 42_key_schedule.md R123 example. -/
theorem test_compress : after (.compress 0x03 0x05) [.status, .res] = some [0x01, 0x2E] := by decide
/-- 42_key_schedule.md R123 corner case: only discarded bits set. -/
theorem test_compress_discards : after (.compress 0x00 0x0A) [.status, .res] = some [0x01, 0x00] := by decide
/-- 42_key_schedule.md R125 example: the halves stay 0, RES is 0. -/
theorem test_genkeys : after (.genkeys 0x6A) [.status, .res, .k .r1, .k .r2, .k .r3, .kl .r1, .kr .r1] =
    some [0x01, 0, 0x33, 0x2E, 0x14, 0, 0] := by decide
/-- 43_round_function.md R142 example (SBOX-dependent). -/
theorem test_fround : after (.fround 0x0C 0x33) [.status, .res, .e .r1] = some [0x01, 0x0A, 0] := by decide
/-- 43_round_function.md R142 corner case: the smallest rejected value of B. -/
theorem test_fround_too_wide : after (.fround 0x00 0x40) [.status, .res] = some [0x06, 0] := by decide
/-- 43_round_function.md R143 example (SBOX-dependent). -/
theorem test_froundT : after (.froundT 0x0C 0x33)
    [.status, .res, .e .r1, .x .r1, .row .r1, .col .r1, .sv .r1, .p .r1, .l .r1, .r .r1, .k .r1] =
    some [0x11, 0x0A, 0x0B, 0x38, 0x02, 0x0C, 0x03, 0x0A, 0, 0, 0] := by decide
/-- 43_round_function.md R143: on an error no trace register is written. -/
theorem test_froundT_too_wide : after (.froundT 0x10 0x33) [.status, .res, .e .r1] = some [0x06, 0, 0] := by decide
/-- 44_encrypt_decrypt.md R152 example (SBOX-dependent): not even the subkeys show. -/
theorem test_encrypt : after (.encrypt 0x5C 0x6A) [.status, .res, .k .r1, .r .r3] = some [0x01, 0x06, 0, 0] := by decide
/-- 44_encrypt_decrypt.md R152 corner case (SBOX-dependent). -/
theorem test_encrypt_zero : after (.encrypt 0x00 0x00) [.res] = some [0x3B] := by decide
/-- 44_encrypt_decrypt.md R153 example (SBOX-dependent): key schedule, RES and step record 1. -/
theorem test_encryptT_first : after (.encryptT 0x5C 0x6A)
    [.status, .res, .kl .r1, .kr .r1, .k .r1, .kl .r3, .kr .r3, .k .r3, .e .r1, .x .r1, .row .r1, .col .r1, .l .r1, .r .r1] =
    some [0x11, 0x06, 0x0C, 0x05, 0x33, 0x06, 0x0A, 0x14, 0x0B, 0x38, 0x02, 0x0C, 0x0C, 0x0F] := by decide
/-- 44_encrypt_decrypt.md R153 example (SBOX-dependent): K2 and step record 3. -/
theorem test_encryptT_last : after (.encryptT 0x5C 0x6A)
    [.k .r2, .e .r3, .x .r3, .row .r3, .col .r3, .sv .r3, .p .r3, .l .r3, .r .r3] =
    some [0x2E, 0x00, 0x14, 0x00, 0x0A, 0x06, 0x09, 0x00, 0x06] := by decide
/-- 44_encrypt_decrypt.md R155 example (SBOX-dependent). -/
theorem test_decrypt : after (.decrypt 0x06 0x6A) [.status, .res, .k .r1] = some [0x01, 0x5C, 0] := by decide
/-- 44_encrypt_decrypt.md R156 example (SBOX-dependent): K1 in generation order, step record 1 with the pair after the swap. -/
theorem test_decryptT_first : after (.decryptT 0x06 0x6A)
    [.status, .res, .k .r1, .k .r3, .e .r1, .x .r1, .row .r1, .col .r1, .sv .r1, .p .r1, .l .r1, .r .r1] =
    some [0x11, 0x5C, 0x33, 0x14, 0x00, 0x14, 0x00, 0x0A, 0x06, 0x09, 0x0F, 0x00] := by decide
/-- 44_encrypt_decrypt.md R156 example (SBOX-dependent): step records 2 and 3. -/
theorem test_decryptT_last : after (.decryptT 0x06 0x6A) [.e .r2, .p .r2, .l .r2, .r .r2, .e .r3, .x .r3, .l .r3, .r .r3] =
    some [0x3F, 0x0C, 0x0C, 0x0F, 0x0B, 0x38, 0x05, 0x0C] := by decide

/-- 60_exceptions.md R185 example, and R77: an illegal word clears the file and reports 0x0A. -/
theorem test_illegal_word : afterWord 0x180000FF [.status, .res, .k .r1] = some [0x0A, 0, 0] ∧
    afterWord 0x00000000 [.status] = some [0x0A] := by decide

/-! ### Host operations other than commands -/

/-- 20_memory.md R55, 10_state.md R32: a read of RES and of a reserved number; the highest register number. -/
theorem test_reads : (nextState? (hostRead 0x01 dirty)).map State.replies = some [0xFF] ∧
    (nextState? (hostRead 0x02 dirty)).map State.replies = some [0x00] ∧
    (nextState? (hostRead 0x27 dirty)).map State.replies = some [0x0F] ∧
    (nextState? (hostRead 0x3F dirty)).map State.replies = some [0x00] := by decide

/-- 93_implementation_defined.md U17, U18: refused by name. -/
theorem test_bus_refusals : refusal? (perform (.read 0x40) dirty) = some .noSuchRegister ∧
    refusal? (perform (.writeRegister 0x01 0x00) dirty) = some .registerWrite ∧
    refusal? (perform .readPort dirty) = some .commandPortRead := by decide

/-- 93_implementation_defined.md U22: no command before the ROM holds the table. -/
theorem test_rom_not_loaded :
    refusal? (hostCommand 0x1000000C ⟨none, OutFile.cleared, [], []⟩) = some .romNotLoaded := by decide

/-- 10_state.md R20, R21 (log entry 5). -/
theorem test_loadRom : (nextState? (loadRom sboxTable ⟨none, OutFile.cleared, [], []⟩)).map State.rom = some (some sboxTable) ∧
    refusal? (loadRom sboxTable State.reset) = some .romAlreadyLoaded ∧
    refusal? (loadRom (Vector.replicate 4 (Vector.replicate 16 0)) ⟨none, OutFile.cleared, [], []⟩) =
      some .romLacksStatedEntry := by decide

/-- 70_reset_and_hazards.md R210: reset clears the old values and leaves the ROM. -/
theorem test_reset : nextState? (perform .reset dirty) = some State.reset := by decide

/-- log entry 8: a platform turn for an instance that does not exist. -/
theorem test_noSuchEngine : refusal? (stepAt 1 [State.reset]) = some .noSuchEngine := by decide

/-- log entry 11: a word of more than 32 bits is no command. -/
theorem test_tableWord : decodeTableWord 32 0x1000000C = some (.expand 0x0C) ∧ decodeTableWord 40 0x11000000C = none ∧
    decodeTableWord 8 0x1000000C = none := by decide

/-! ### Witnesses: values that meet the hypotheses of the statements -/

/-- A state as a run leaves it: after SUBST 0x25, a read waiting. -/
def substDone : State := ⟨some sboxTable, (OutFile.cleared.write .res 0x08).write .status 0x01, [.read 1], []⟩

theorem get_substDone (reg : OutReg) :
    substDone.out.get reg = if reg = .status then 0x01 else if reg = .res then 0x08 else 0 := by
  simp only [substDone, OutFile.get_write, OutFile.get_cleared]

theorem test_witness_invariant : substDone.Inv := by
  refine ⟨fun t h => ?_, ?_, fun reg => ?_, fun h => ?_, fun _ reg h => ?_⟩
  · cases h
    decide
  · rw [get_substDone]
    decide
  · rw [get_substDone]
    cases reg <;> first | decide | simp [OutReg.contentWidth]
  · rw [get_substDone] at h
    exact absurd h (by decide)
  · rw [get_substDone]
    cases reg <;> simp [OutReg.traceOnly] at h ⊢

/-- The witness of EveryStepKeepsTheInvariant. -/
theorem test_witness_EveryStepKeepsTheInvariant : ∃ s s' : State, s.Inv ∧ step s = .next s' :=
  ⟨substDone, _, test_witness_invariant, rfl⟩

theorem test_witness_SubstOfTheStatedEntryIsEight : ∃ (s : State) (t : SBox), s.Inv ∧ s.rom = some t :=
  ⟨substDone, sboxTable, test_witness_invariant, rfl⟩

/-- Equal width, shorter, longer. -/
theorem test_witness_ShorterVectors : (4 ≤ 4 ∧ acceptVector 4 0xC#4 = some 0xC#4) ∧
    (2 ≤ 4 ∧ acceptVector 4 0x3#2 = some 0x3#4) ∧ (4 < 5 ∧ acceptVector 4 0x0C#5 = none) := by decide

theorem test_witness_FieldPasses : ((0x0F : Byte).toNat < 2 ^ 4 ∧ acceptWidth 4 0x0F = some 0xF#4) ∧
    (2 ^ 4 ≤ (0x10 : Byte).toNat ∧ acceptWidth 4 0x10 = none) ∧
    ((0xFF : Byte).toNat < 2 ^ 8 ∧ acceptWidth 8 0xFF = some 0xFF#8) := by decide

/-- 41_bit_transforms.md R102: "100101" is row 3, column 2. -/
theorem test_witness_SubstReadsTheRowAndColumn : ∃ (x : Sextet) (row : RowNo) (col : Nibble),
    row.getMsbD 0 = x.getMsbD 0 ∧ row.getMsbD 1 = x.getMsbD 5 ∧ (∀ i, i < 4 → col.getMsbD i = x.getMsbD (i + 1)) ∧
    romEntry sboxTable row col = 0x8 := ⟨0b100101, 3, 2, by decide⟩

/-- 20_memory.md R51: the flat address of row 3, column 2 is 0x32. -/
theorem test_witness_SubstReadsTheFlatAddress : ∃ x addr : Sextet, addr.getMsbD 0 = x.getMsbD 0 ∧
    addr.getMsbD 1 = x.getMsbD 5 ∧ addr.getMsbD 2 = x.getMsbD 1 ∧ addr.getMsbD 3 = x.getMsbD 2 ∧
    addr.getMsbD 4 = x.getMsbD 3 ∧ addr.getMsbD 5 = x.getMsbD 4 ∧ romFlat sboxTable addr = 0x8 :=
  ⟨0b100101, 0x32, by decide⟩

/-- 42_key_schedule.md R120: bit 0 of a 4-bit vector rotated by 1 goes to position 3. -/
theorem test_witness_RotLMovesEveryBitLeft : 0 < 4 ∧ ((((0 : Nat) : Int) - ((1 : Nat) : Int)) % ((4 : Nat) : Int)).toNat = 3 ∧
    rotL 0b1000#4 1 = 0b0001#4 := by decide

/-- 42_key_schedule.md R123 example. -/
theorem test_witness_CompressPicks : ∃ (kl kr : Nibble) (k : Byte), k = kl ++ kr ∧ compress kl kr = 0x2E :=
  ⟨0x3, 0x5, 0x35, by decide⟩

/-- 42_key_schedule.md R125 example. -/
theorem test_witness_SubkeysFollow : ∃ (key : Byte) (kl0 kr0 kl1 kr1 kl2 kr2 kl3 kr3 : Nibble),
    key = kl0 ++ kr0 ∧ kl1 = rotL kl0 1 ∧ kr1 = rotL kr0 1 ∧ kl2 = rotL kl1 2 ∧ kr2 = rotL kr1 2 ∧
    kl3 = rotL kl2 1 ∧ kr3 = rotL kr2 1 ∧ subkeys key = (0x33, 0x2E, 0x14) :=
  ⟨0x6A, 0x6, 0xA, 0xC, 0x5, 0x3, 0x5, 0x6, 0xA, by decide⟩

theorem test_witness_SubkeyTriples : ∃ k k' : Byte, subkeys k = subkeys k' := ⟨0x6A, 0x6A, rfl⟩

/-- The hypothesis of the first clause, and the pairs of halves that agree in all bits but the discarded ones
(42_key_schedule.md R123 corner case) or differ in a kept one. -/
theorem test_witness_BitMaps : (∃ a b : Nibble, expand a = expand b) ∧
    compress 0x0 0xA = compress 0x0 0x0 ∧ compress 0x0 0x4 ≠ compress 0x0 0x0 := ⟨⟨0xC, 0xC, rfl⟩, by decide⟩

/-- The halves of the block and of the key in the four statements about ENCRYPT, ENCRYPT.T, DECRYPT and DECRYPT.T
(44_encrypt_decrypt.md R153 and R156 examples). -/
theorem test_witness_halves : ∃ (p c key : Byte) (l0 r0 la ra kl0 kr0 : Nibble), p = l0 ++ r0 ∧ c = la ++ ra ∧ key = kl0 ++ kr0 :=
  ⟨0x5C, 0x06, 0x6A, 0x5, 0xC, 0x0, 0x6, 0x6, 0xA, by decide⟩

/-- 44_encrypt_decrypt.md R153 and R156 examples (SBOX-dependent). -/
theorem test_witness_DecryptionTraceMirrors :
    encRecords Config.sbox 0x5C 0x6A = (⟨⟨0x0B, 0x38, 2, 0xC, 0x3, 0xA⟩, 0xC, 0xF⟩, ⟨⟨0x3F, 0x11, 1, 0x8, 0xA, 0xC⟩, 0xF, 0x0⟩,
      ⟨⟨0x00, 0x14, 0, 0xA, 0x6, 0x9⟩, 0x0, 0x6⟩) ∧
    decRecords Config.sbox (encrypt Config.sbox 0x5C 0x6A) 0x6A = (⟨⟨0x00, 0x14, 0, 0xA, 0x6, 0x9⟩, 0xF, 0x0⟩,
      ⟨⟨0x3F, 0x11, 1, 0x8, 0xA, 0xC⟩, 0xC, 0xF⟩, ⟨⟨0x0B, 0x38, 2, 0xC, 0x3, 0xA⟩, 0x5, 0xC⟩) := by decide

theorem test_witness_LegalWordIsTheEncoding : ∃ (w : Word) (i : Instr), decode w = .ok i :=
  ⟨0x98006A06, .decryptT 0x06 0x6A, rfl⟩

theorem test_witness_LegalWordConditions : ∃ w w' : Word, w ≠ w' ∧ w.extractLsb' 8 24 = w'.extractLsb' 8 24 :=
  ⟨0x10000000, 0x100000FF, by decide⟩

theorem test_witness_TableRows : ∃ (w : Word) (row : OpcodeRow), row ∈ opcodeRows ∧ w &&& row.mask = row.pattern :=
  ⟨0x1000000C, ⟨"EXPAND", 0x10000000, 0xFFFFFF00⟩, by decide⟩

theorem test_witness_IllegalWords : ∃ (w : Word) (s : State) (t : SBox) (rest : List Event),
    s.rom = some t ∧ s.pending = .command w :: rest ∧ IllegalWord w :=
  ⟨0, ⟨some Config.sbox, OutFile.cleared, [.command 0, .read 0], []⟩, _, _, rfl, rfl, _, rfl⟩

/-- The hypothesis of CompletesShowing and EndsWithStatus, and the operands of the clauses at the ends of their ranges. -/
theorem test_witness_operands : (∃ t : SBox, State.reset.rom = some t) ∧
    (0x0F : Byte).toNat < 16 ∧ 16 ≤ (0x10 : Byte).toNat ∧ (0x3F : Byte).toNat < 64 ∧ 64 ≤ (0x40 : Byte).toNat :=
  ⟨⟨_, rfl⟩, by decide⟩

/-- The word clauses of EXPAND, SUBST, PERMUTE and GENKEYS: a legal word, and one illegal for each reason. -/
theorem test_witness_words_one_operand :
    (fieldOpc 0x100000FF = 0x1 ∧ fieldZ 0x100000FF = 0#11 ∧ fieldT 0x100000FF = false ∧ fieldB 0x100000FF = 0#8) ∧
    (fieldOpc 0x200000FF = 0x2 ∧ fieldZ 0x200000FF = 0#11 ∧ fieldT 0x200000FF = false ∧ fieldB 0x200000FF = 0#8) ∧
    (fieldOpc 0x300000FF = 0x3 ∧ fieldZ 0x300000FF = 0#11 ∧ fieldT 0x300000FF = false ∧ fieldB 0x300000FF = 0#8) ∧
    (fieldOpc 0x600000FF = 0x6 ∧ fieldZ 0x600000FF = 0#11 ∧ fieldT 0x600000FF = false ∧ fieldB 0x600000FF = 0#8) ∧
    (fieldOpc 0x10010000 = 0x1 ∧ fieldZ 0x10010000 ≠ 0#11) ∧ (fieldOpc 0x28000000 = 0x2 ∧ fieldT 0x28000000 = true) ∧
    (fieldOpc 0x30000100 = 0x3 ∧ fieldB 0x30000100 ≠ 0#8) ∧ (fieldOpc 0x60000100 = 0x6 ∧ fieldB 0x60000100 ≠ 0#8) := by
  decide

/-- The word clauses of the commands with two operands. -/
theorem test_witness_words_two_operands :
    (fieldOpc 0x4000FFFF = 0x4 ∧ fieldZ 0x4000FFFF = 0#11 ∧ fieldT 0x4000FFFF = false) ∧
    (fieldOpc 0x5000FFFF = 0x5 ∧ fieldZ 0x5000FFFF = 0#11 ∧ fieldT 0x5000FFFF = false) ∧
    (fieldOpc 0x48000000 = 0x4 ∧ fieldT 0x48000000 = true) ∧ (fieldOpc 0x54000000 = 0x5 ∧ fieldZ 0x54000000 ≠ 0#11) ∧
    (fieldOpc 0x7000FFFF = 0x7 ∧ fieldT 0x7000FFFF = false ∧ fieldZ 0x7000FFFF = 0#11) ∧
    (fieldOpc 0x7800FFFF = 0x7 ∧ fieldT 0x7800FFFF = true ∧ fieldZ 0x7800FFFF = 0#11) ∧
    (fieldOpc 0x8000FFFF = 0x8 ∧ fieldT 0x8000FFFF = false ∧ fieldZ 0x8000FFFF = 0#11) ∧
    (fieldOpc 0x8800FFFF = 0x8 ∧ fieldT 0x8800FFFF = true ∧ fieldZ 0x8800FFFF = 0#11) ∧
    (fieldOpc 0x9000FFFF = 0x9 ∧ fieldT 0x9000FFFF = false ∧ fieldZ 0x9000FFFF = 0#11) ∧
    (fieldOpc 0x9800FFFF = 0x9 ∧ fieldT 0x9800FFFF = true ∧ fieldZ 0x9800FFFF = 0#11) ∧
    (fieldOpc 0x70010000 = 0x7 ∧ fieldT 0x70010000 = false ∧ fieldZ 0x70010000 ≠ 0#11) ∧
    (fieldOpc 0x7C000000 = 0x7 ∧ fieldT 0x7C000000 = true ∧ fieldZ 0x7C000000 ≠ 0#11) ∧
    (fieldOpc 0x80010000 = 0x8 ∧ fieldT 0x80010000 = false ∧ fieldZ 0x80010000 ≠ 0#11) ∧
    (fieldOpc 0x8C000000 = 0x8 ∧ fieldT 0x8C000000 = true ∧ fieldZ 0x8C000000 ≠ 0#11) ∧
    (fieldOpc 0x90010000 = 0x9 ∧ fieldT 0x90010000 = false ∧ fieldZ 0x90010000 ≠ 0#11) ∧
    (fieldOpc 0x9C000000 = 0x9 ∧ fieldT 0x9C000000 = true ∧ fieldZ 0x9C000000 ≠ 0#11) := by decide

/-- The three ways to end of ErrorTableDecidesHowACommandEnds, at the smallest rejected and the largest accepted value. -/
theorem test_witness_ErrorTable : (∃ t : SBox, State.reset.rom = some t) ∧ fieldZ 0x10010000 ≠ 0#11 ∧ IllegalByTable 0x18000000 ∧
    (fieldZ 0x10000010 = 0#11 ∧ ¬IllegalByTable 0x10000010 ∧ TooWideByTable 0x10000010) ∧
    (fieldZ 0x1000000F = 0#11 ∧ ¬IllegalByTable 0x1000000F ∧ ¬TooWideByTable 0x1000000F) :=
  ⟨⟨_, rfl⟩, by decide, .inl rfl, ⟨by decide, fun h => h.elim (by decide) (by decide), show 0x10 ≤ (fieldA 0x10000010).toNat by decide⟩,
    ⟨by decide, fun h => h.elim (by decide) (by decide), show ¬0x10 ≤ (fieldA 0x1000000F).toNat by decide⟩⟩

/-- StatusReportsTheLastCommand, ReadsChangeNothingAndCommandsAreIdempotent and ResetClearsEveryRegister: a command and a reset
that answer. -/
theorem test_witness_StatusReports : (∃ s s' : State, hostCommand 0x88006A5C s = .next s') ∧
    (∃ s s' : State, perform .reset s = .next s') := ⟨⟨State.reset, _, rfl⟩, ⟨State.reset, _, rfl⟩⟩

/-- ErrorLeavesOnlyItsStatus and ErrorsAreNotSticky: an illegal word, and a legal word with a too wide operand. -/
theorem test_witness_ErrorLeavesOnlyItsStatus :
    (IllegalWord 0 ∧ ∃ s' : State, hostCommand 0 State.reset = .next s' ∧ statusErr (s'.out.get .status) = true) ∧
    (¬IllegalWord 0x10000010 ∧
      ∃ s' : State, hostCommand 0x10000010 State.reset = .next s' ∧ statusErr (s'.out.get .status) = true) :=
  ⟨⟨⟨_, rfl⟩, _, rfl, rfl⟩, fun ⟨_, h⟩ => (nomatch h), _, rfl, rfl⟩

theorem test_witness_IllegalCommandHasPriority : (∃ t : SBox, State.reset.rom = some t) ∧ IllegalWord 0x180000FF ∧
    16 ≤ (0x10 : Byte).toNat ∧ 64 ≤ (0x40 : Byte).toNat := ⟨⟨_, rfl⟩, ⟨_, rfl⟩, by decide⟩

theorem test_witness_StepRunsTheDecodedCommand : ∃ (s : State) (w : Word) (rest : List Event) (i : Instr),
    s.pending = .command w :: rest ∧ decode w = .ok i :=
  ⟨State.reset.setPending [.command 0x80006A5C, .read 1], _, _, .encrypt 0x5C 0x6A, rfl, rfl⟩

theorem test_witness_FetchWordIsTheNextCommand : 0x98006A06 < 2 ^ 32 ∧
    decode (BitVec.ofNat 32 0x98006A06) = .ok (.decryptT 0x06 0x6A) := ⟨by decide, rfl⟩

/-- Two states with the same ROM and different registers. -/
theorem test_witness_CommandDependsOnItsWord : ∃ s s' : State, s ≠ s' ∧ s.rom = s'.rom := ⟨State.reset, dirty, by decide, rfl⟩

theorem test_witness_ReadsChangeNothing : 63 < 64 ∧ ∃ s s' : State, hostCommand 0x80006A5C s = .next s' :=
  ⟨by decide, State.reset, _, rfl⟩

/-- A command, then reads of STATUS and of the last number; a reset, then no read. -/
theorem test_witness_ReadsReturnTheLatest :
    (∃ (s s' : State) (w : Word), (∀ n ∈ [0, 63], n < 64) ∧
      s.pending = .command w :: ([0, 63].map Event.read ++ []) ∧ step s = .next s') ∧
    (∃ s s' : State, s.pending = .reset :: (([] : List Nat).map Event.read ++ []) ∧ step s = .next s') :=
  ⟨⟨State.reset.setPending [.command 0x80006A5C, .read 0, .read 63], _, 0x80006A5C, by decide, rfl, rfl⟩,
    ⟨State.reset.setPending [.reset], _, rfl, rfl⟩⟩

theorem test_witness_EveryCommandCompletes : ∃ (s : State) (t : SBox), s.rom = some t := ⟨State.reset, _, rfl⟩

theorem test_witness_SboxNeverChanges : (∃ (s s' : State) (t : SBox), s.rom = some t ∧ step s = .next s') ∧
    ∃ s : State, s.rom = none :=
  ⟨⟨State.reset.setPending [.command 0x80006A5C], _, _, rfl, rfl⟩, ⟨none, OutFile.cleared, [], []⟩, rfl⟩

/-- The three cases of loading the ROM, and the first number that is no register number. -/
theorem test_witness_InputsOutsideTheSpec : 64 ≤ 0x40 ∧ romEntry sboxTable 3#2 2#4 = 0x8#4 ∧
    romEntry (Vector.replicate 4 (Vector.replicate 16 0)) 3#2 2#4 ≠ 0x8#4 ∧
    (State.mk none OutFile.cleared [] []).rom = none ∧ State.reset.rom ≠ none := by decide

theorem test_witness_ResetClears : (∃ (s : State) (rest : List Event), s.pending = .reset :: rest) ∧
    ∃ (w : Word) (s s' s'' : State), hostCommand w s = .next s' ∧ perform .reset s' = .next s'' :=
  ⟨⟨State.reset.setPending [.reset], _, rfl⟩, 0x80006A5C, State.reset, _, _, rfl, rfl⟩

/-- The reserved numbers at both ends, and an assigned one. -/
theorem test_witness_ReservedNumbers : isReservedNumber 0x02 = true ∧ isReservedNumber 0x28 = true ∧
    isReservedNumber 0x3F = true ∧ isReservedNumber 0x27 = false := by decide

/-- One state for each of the three cases. -/
theorem test_witness_TracedCommands : ∃ s p q p' q' p'' q'' : State,
    (exec (.fround 0x0C 0x33) s = .next p ∧ exec (.froundT 0x0C 0x33) s = .next q) ∧
    (exec (.encrypt 0x5C 0x6A) s = .next p' ∧ exec (.encryptT 0x5C 0x6A) s = .next q') ∧
    (exec (.decrypt 0x06 0x6A) s = .next p'' ∧ exec (.decryptT 0x06 0x6A) s = .next q'') :=
  ⟨State.reset, _, _, _, _, _, _, ⟨rfl, rfl⟩, ⟨rfl, rfl⟩, rfl, rfl⟩

theorem test_witness_EncryptThenDecrypt : ∃ (s : State) (t : SBox), s.rom = some t := ⟨dirty, _, rfl⟩

/-- Two instances, the first with a command waiting, the second with a reset. -/
theorem test_witness_EngineInstances : ∃ (p p1 p2 : Platform) (s : State), p[0]? = some s ∧ stepAt 0 p = .next p1 ∧
    0 ≠ 1 ∧ stepAt 1 p1 = .next p2 :=
  ⟨[State.reset.setPending [.command 0x80006A5C], dirty.setPending [.reset]], _, _, _, rfl, rfl, by decide, rfl⟩

end Sys2Proof.Tests
end

section
/-! The width contract on a written vector of any length (00_scope.md R8): the two cases of `acceptVector`. -/

namespace Sys2Proof.Machine

/-- A vector that fits is accepted as its zero-extension. -/
theorem acceptVector_of_le {width len : Nat} (h : len ≤ width) (v : BitVec len) :
    acceptVector width v = some (v.setWidth width) := if_pos h

/-- A vector that does not fit is rejected whatever its value: leading zeros do not shorten it. -/
theorem acceptVector_of_gt {width len : Nat} (h : width < len) (v : BitVec len) :
    acceptVector width v = none := if_neg (Nat.not_le.mpr h)

/-- Settles O1: the accepted vector is the zero-extension, which keeps the value as no bit is cut off. -/
theorem shorterVectorsAreZeroExtendedLongerRejected :
    Obligations.ShorterVectorsAreZeroExtendedLongerRejected := by
  intro width len v
  constructor
  · intro hfits
    exact ⟨v.setWidth width, acceptVector_of_le hfits v, BitVec.toNat_setWidth_of_le hfits⟩
  · intro hlong
    exact acceptVector_of_gt hlong v

end Sys2Proof.Machine
end

section
/-! The register file at reset and at the reserved numbers (10_state.md R32, R39). -/

namespace Sys2Proof.Machine

/-- Every register number reads 0 in the cleared file. -/
theorem OutFile.readNumber_cleared (n : RegNo) : OutFile.cleared.readNumber n = 0 := by
  unfold OutFile.readNumber
  split
  · next reg _ => exact OutFile.get_cleared reg
  · rfl

/-- Settles O53: the reset state is the cleared file beside the configured ROM. -/
theorem resetStateReadsZero : Obligations.ResetStateReadsZero :=
  ⟨OutFile.readNumber_cleared, State.reset_rom⟩

/-- The reserved numbers are exactly those the table of R27 gives no register. -/
theorem isReservedNumber_eq_isNone (n : RegNo) : isReservedNumber n = (regOfNumber n).isNone := by
  revert n
  decide

/-- A reserved number has no storage: it reads 0 in every register file. -/
theorem OutFile.readNumber_reserved (o : OutFile) {n : RegNo} (h : isReservedNumber n = true) : o.readNumber n = 0 := by
  rw [isReservedNumber_eq_isNone, Option.isNone_iff_eq_none] at h
  simp only [OutFile.readNumber, h]

/-- The assigned numbers are exactly the numbers of the named registers. -/
theorem not_reserved_iff_exists_number (n : RegNo) : isReservedNumber n = false ↔ ∃ reg : OutReg, reg.number = n := by
  simp only [isReservedNumber_eq_isNone, Option.isNone_eq_false_iff, Option.isSome_iff_exists, regOfNumber_eq_some_iff]

/-- Settles O54: a reserved number names no register, so no file, written or not, holds a value for it. -/
theorem reservedNumbersReadZero : Obligations.ReservedNumbersReadZero :=
  ⟨fun o _ h => o.readNumber_reserved h, not_reserved_iff_exists_number,
    fun o reg v _ h => (o.write reg v).readNumber_reserved h⟩

end Sys2Proof.Machine
end

section
/-! What `HostCommand` can do, said once (30_encoding.md R81), and the ROM through every operation (10_state.md R20). -/

namespace Sys2Proof.Machine

/-- Everything a command of the instruction set can do, when it answers a next state: one `InvalidWidth` if an operand is too
wide, completion otherwise. -/
theorem exec_next {i : Instr} {s s' : State} (h : exec i s = .next s') :
    (∃ t, s.rom = some t) ∧
      ((i.wellFormed = false ∧ s' = takeError .invalidWidth s) ∨
        (i.wellFormed = true ∧ ∃ o, s' = completeWith i.traced o s)) := by
  obtain ⟨outputs, hexec, hnone⟩ := exec_eq_runCommand i
  rw [hexec] at h
  obtain ⟨t, hrom, ⟨hout, hs⟩ | ⟨f, hout, hs⟩⟩ := runCommand_next h
  · exact ⟨⟨t, hrom⟩, .inl ⟨hnone.mp hout, hs⟩⟩
  · have fits : i.wellFormed = true := by
      rw [← Bool.not_eq_false, ← hnone, hout]
      exact Option.some_ne_none f
    exact ⟨⟨t, hrom⟩, .inr ⟨fits, f t, hs⟩⟩

/-- Everything a command word can do, when it answers a next state: `IllegalCommand`, `InvalidWidth` or completion. -/
theorem hostCommand_next {w : Word} {s s' : State} (h : hostCommand w s = .next s') :
    (∃ t, s.rom = some t) ∧
      ((∃ e, decode w = .error e ∧ s' = takeError .illegalCommand s) ∨
        (∃ i, decode w = .ok i ∧ i.wellFormed = false ∧ s' = takeError .invalidWidth s) ∨
        (∃ i o, decode w = .ok i ∧ i.wellFormed = true ∧ s' = completeWith i.traced o s)) := by
  unfold hostCommand at h
  cases hw : decode w with
  | error e =>
    rw [hw] at h
    obtain ⟨hrom, hs⟩ := runIllegal_next h
    exact ⟨hrom, .inl ⟨e, rfl, hs⟩⟩
  | ok i =>
    rw [hw] at h
    obtain ⟨hrom, ⟨hwide, hs⟩ | ⟨hfits, o, hs⟩⟩ := exec_next h
    · exact ⟨hrom, .inr (.inl ⟨i, rfl, hwide, hs⟩)⟩
    · exact ⟨hrom, .inr (.inr ⟨i, o, rfl, hfits, hs⟩)⟩

/-- A command word that answers changes the register file only. -/
theorem hostCommand_frame {w : Word} {s s' : State} (h : hostCommand w s = .next s') : s' = s.setOut s'.out := by
  obtain ⟨-, ⟨_, _, rfl⟩ | ⟨_, _, _, rfl⟩ | ⟨_, _, _, _, rfl⟩⟩ := hostCommand_next h <;> rfl

/-- Before the ROM is loaded every command word is refused (93_implementation_defined.md U22). -/
theorem hostCommand_unloaded {s : State} (h : s.rom = none) (w : Word) : hostCommand w s = .refused .romNotLoaded := by
  unfold hostCommand
  cases decode w with
  | error e => simp only [runIllegal, h]
  | ok i =>
    obtain ⟨outputs, hexec, -⟩ := exec_eq_runCommand i
    exact (hexec s).trans (runCommand_unloaded h i.traced outputs)

/-- No operation changes a loaded ROM. -/
theorem perform_keeps_rom {ev : Event} {s s' : State} {t : SBox} (hrom : s.rom = some t)
    (h : perform ev s = .next s') : s'.rom = some t := by
  cases ev with
  | command w => rw [hostCommand_frame h, State.setOut_rom, hrom]
  | read n =>
    obtain ⟨-, rfl⟩ := hostRead_next h
    rw [State.addReply_rom, hrom]
  | reset => cases h; exact hrom
  | loadRom u =>
    obtain ⟨hnone, -⟩ := loadRom_next h
    rw [hrom] at hnone
    cases hnone
  | writeRegister n v => cases h
  | readPort => cases h

/-- No step changes a loaded ROM. -/
theorem step_keeps_rom {s s' : State} {t : SBox} (hrom : s.rom = some t) (h : step s = .next s') : s'.rom = some t := by
  obtain ⟨-, rfl⟩ | ⟨ev, rest, -, hev⟩ := step_next h
  · exact hrom
  · exact perform_keeps_rom (s := s.setPending rest) hrom hev

/-- Settles O50: only loading writes the ROM, and it is refused once a table is there. -/
theorem sboxNeverChangesOnceLoaded : Obligations.SboxNeverChangesOnceLoaded :=
  ⟨fun _ _ _ hrom h => step_keeps_rom hrom h, fun _ w h => hostCommand_unloaded h w⟩

end Sys2Proof.Machine
end

section
/-! STATUS after each of the three outcomes of a command word (10_state.md R28). -/

namespace Sys2Proof.Machine

@[simp] theorem statusOk_statusWord : ∀ ok err ecode tv, statusOk (statusWord ok err ecode tv) = ok := by decide
@[simp] theorem statusErr_statusWord : ∀ ok err ecode tv, statusErr (statusWord ok err ecode tv) = err := by decide
@[simp] theorem statusEcode_statusWord : ∀ ok err ecode tv, statusEcode (statusWord ok err ecode tv) = ecode := by decide
@[simp] theorem statusTv_statusWord : ∀ ok err ecode tv, statusTv (statusWord ok err ecode tv) = tv := by decide
@[simp] theorem statusWord_bits_7_5 : ∀ ok err ecode tv, (statusWord ok err ecode tv).extractLsb' 5 3 = 0 := by decide

@[simp] theorem takeError_status (e : ErrorKind) (s : State) : (takeError e s).out.get .status = statusError e := by
  rw [takeError, State.setOut_out, OutFile.get_write_same]

@[simp] theorem completeWith_status (traced : Bool) (o : OutFile) (s : State) :
    (completeWith traced o s).out.get .status = statusDone traced := by
  rw [completeWith, State.setOut_out, OutFile.get_write_same]

/-- STATUS after a command that completed is 0x01, or 0x11 with a trace. -/
theorem statusDone_mem : ∀ traced, statusDone traced ∈ [0x01, 0x11, 0x06, 0x0A] := by decide

/-- STATUS after an error is 0x06 or 0x0A. -/
theorem statusError_mem (e : ErrorKind) : statusError e ∈ [0x01, 0x11, 0x06, 0x0A] := by
  cases e <;> decide

/-- Settles O40: by the three outcomes of a command word, each with its own STATUS word. -/
theorem statusReportsTheLastCommand : Obligations.StatusReportsTheLastCommand := by
  refine ⟨fun w s s' h => ?_, fun s s' h => ?_, rfl⟩
  · obtain ⟨-, ⟨e, hw, rfl⟩ | ⟨i, hw, hwide, rfl⟩ | ⟨i, o, hw, hfits, rfl⟩⟩ := hostCommand_next h
    · rw [takeError_status]
      exact ⟨statusError_mem _, by simp [statusError, ErrorKind.code, IllegalWord, hw]⟩
    · rw [takeError_status]
      exact ⟨statusError_mem _, by simp [statusError, ErrorKind.code, IllegalWord, hw, hwide]⟩
    · obtain ⟨-, -, htraced, -, -⟩ := fields_of_decode hw
      rw [completeWith_status, htraced]
      exact ⟨statusDone_mem _, by simp [statusDone, IllegalWord, hw, hfits]⟩
  · cases h
    exact OutFile.get_cleared .status

end Sys2Proof.Machine
end

section
/-! Operations in arrival order: a command or reset, then the reads behind it (20_memory.md R58). -/

namespace Sys2Proof.Machine

/-- The operation that waits first takes effect on the state without it. -/
theorem step_of_pending {s : State} {ev : Event} {rest : List Event} (h : s.pending = ev :: rest) :
    step s = perform ev (s.setPending rest) := by
  unfold step takeNext
  rw [h]

/-- A read of a register number answers the register. -/
theorem hostRead_of_lt {n : Nat} (h : n < 64) (s : State) :
    hostRead n s = .next (s.addReply (s.out.readNumber (BitVec.ofNat 6 n))) := if_pos h

/-- A command and a reset change the register file only. -/
theorem perform_command_or_reset_frame {ev : Event} {s s' : State}
    (hev : (∃ w, ev = .command w) ∨ ev = .reset) (h : perform ev s = .next s') :
    s' = s.setOut s'.out := by
  obtain ⟨w, rfl⟩ | rfl := hev
  · exact hostCommand_frame h
  · cases h
    rfl

/-- A read that waits first puts its register on the replies and leaves the waiting list. -/
theorem step_read {s : State} {n : Nat} {rest : List Event} (hn : n < 64) (h : s.pending = .read n :: rest) :
    step s = .next ((s.setPending rest).addReply (s.out.readNumber (BitVec.ofNat 6 n))) :=
  (step_of_pending h).trans (hostRead_of_lt hn (s.setPending rest))

/-- As many steps as reads wait first: each answers its register in turn, the registers and the ROM stay, what is behind the
reads still waits. -/
theorem runSteps_reads (ns : List Nat) (rest : List Event) (s : State) (hns : ∀ n ∈ ns, n < 64)
    (h : s.pending = ns.map Event.read ++ rest) :
    runSteps ns.length s = .next
      { s with pending := rest
               replies := (ns.map fun n => s.out.readNumber (BitVec.ofNat 6 n)).reverse ++ s.replies } := by
  induction ns generalizing s with
  | nil =>
    cases h
    rfl
  | cons n ns ih =>
    obtain ⟨hn, htail⟩ := List.forall_mem_cons.mp hns
    rw [List.length_cons, runSteps_succ (step_read hn h), ih _ htail rfl]
    simp [State.setPending, State.addReply]

/-- Settles O48: the command or reset leaves the reads waiting (its frame), and reads keep the register file they answer
from. -/
theorem readsReturnTheLatestCommandOrReset : Obligations.ReadsReturnTheLatestCommandOrReset := by
  refine ⟨fun s ev rest h => step_of_pending h, fun ev ns rest s s' hev hns hpending hstep => ?_⟩
  have hperform : perform ev (s.setPending (ns.map Event.read ++ rest)) = .next s' :=
    (step_of_pending hpending).symm.trans hstep
  have hframe : s' = (s.setPending (ns.map Event.read ++ rest)).setOut s'.out := perform_command_or_reset_frame hev hperform
  have hwaiting : s'.pending = ns.map Event.read ++ rest := by
    rw [hframe, State.setOut_pending, State.setPending_pending]
  have hrom : s'.rom = s.rom := by rw [hframe, State.setOut_rom, State.setPending_rom]
  have hreplies : s'.replies = s.replies := by rw [hframe, State.setOut_replies, State.setPending_replies]
  refine ⟨_, (runSteps_succ hstep).trans (runSteps_reads ns rest s' hns hwaiting), rfl, rfl, hrom, ?_⟩
  rw [hreplies]

end Sys2Proof.Machine
end

section
/-! Turns of several engine instances (20_memory.md R64). -/

namespace Sys2Proof.Machine

/-- A turn leaves every other instance as it was. -/
theorem stepAt_other {p p' : Platform} {j k : Nat} (h : stepAt k p = .next p') (hjk : j ≠ k) : p'[j]? = p[j]? := by
  obtain ⟨_, s', -, -, rfl⟩ := stepAt_next_iff.mp h
  exact List.getElem?_set_ne hjk.symm

/-- A turn leaves its own instance as the instance's step does. -/
theorem stepAt_own {p p' : Platform} {k : Nat} {s : State} (hk : p[k]? = some s) (h : stepAt k p = .next p') :
    ∃ s', step s = .next s' ∧ p'[k]? = some s' := by
  obtain ⟨u, s', hu, hstep, rfl⟩ := stepAt_next_iff.mp h
  obtain rfl : s = u := Option.some.inj (hk.symm.trans hu)
  obtain ⟨hlt, -⟩ := List.getElem?_eq_some_iff.mp hk
  exact ⟨s', hstep, List.getElem?_set_self hlt⟩

/-- Turns of two instances may be taken in either order: each finds its instance as the other's turn leaves it, unchanged. -/
theorem stepAt_comm {p p1 p2 : Platform} {j k : Nat} (hjk : j ≠ k) (hj : stepAt j p = .next p1)
    (hk : stepAt k p1 = .next p2) : ∃ q, stepAt k p = .next q ∧ stepAt j q = .next p2 := by
  have hunchanged : p1[k]? = p[k]? := stepAt_other hj hjk.symm
  obtain ⟨s, s', hs, hstepj, rfl⟩ := stepAt_next_iff.mp hj
  obtain ⟨u, u', hu, hstepk, rfl⟩ := stepAt_next_iff.mp hk
  have hfirst : stepAt k p = .next (p.set k u') := stepAt_next_iff.mpr ⟨u, u', hunchanged ▸ hu, hstepk, rfl⟩
  have hjself : (p.set k u')[j]? = some s := (stepAt_other hfirst hjk).trans hs
  exact ⟨_, hfirst, stepAt_next_iff.mpr ⟨s, s', hjself, hstepj, List.set_comm s' u' hjk⟩⟩

/-- Settles O59: a turn writes its own place in the list of instances only, and reads no other. -/
theorem engineInstancesAreIndependent : Obligations.EngineInstancesAreIndependent :=
  ⟨fun _ _ _ _ hk h => ⟨fun _ hjk => stepAt_other h hjk, stepAt_own hk h⟩,
    fun _ _ _ _ _ hjk hj hk => stepAt_comm hjk hj hk⟩

end Sys2Proof.Machine
end

section
/-! The width check on an operand field (30_encoding.md R75). -/

namespace Sys2Proof.Machine

/-- Settles O2: the accepted vector is the field's low bits, which hold the whole value when it is below `2^W`. -/
theorem fieldPassesExactlyBelowTwoToTheWidth : Obligations.FieldPassesExactlyBelowTwoToTheWidth := by
  constructor
  · intro width f hfits
    refine ⟨f.setWidth width, acceptWidth_of_lt hfits, ?_⟩
    rw [BitVec.toNat_setWidth, Nat.mod_eq_of_lt hfits]
  · intro width f hwide
    exact acceptWidth_of_ge hwide

end Sys2Proof.Machine
end

section
/-! Which words are illegal (30_encoding.md R77): the decoder's errors, one lemma per shape of command, then the opcode map. -/

namespace Sys2Proof

theorem decodeOne_error_iff {t : Bool} {b : Byte} {i : Instr} :
    (∃ e, decodeOne t b i = .error e) ↔ t = true ∨ b ≠ 0#8 := by
  unfold decodeOne
  split
  case isTrue ht => simp [ht]
  case isFalse ht =>
    split
    case isTrue hb => simp [ht, hb]
    case isFalse hb => simp [hb]

theorem decodeTwo_error_iff {t : Bool} {i : Instr} : (∃ e, decodeTwo t i = .error e) ↔ t = true := by
  unfold decodeTwo
  cases t <;> simp

theorem decodeTraced_not_error {t : Bool} {plain traced : Instr} : ¬∃ e, decodeTraced t plain traced = .error e := by
  simp [decodeTraced]

/-- The opcode map rejects a reserved opcode, a `T` without a traced form, and an operand `B` that the command does not take
(30_encoding.md R71, R72, R74). -/
theorem decodeOpc_error_iff {opc : Nat} {t : Bool} {b a : Byte} :
    (∃ e, decodeOpc opc t b a = .error e) ↔
      opc = 0 ∨ 0xA ≤ opc ∨ (t = true ∧ opc ∈ [1, 2, 3, 4, 5, 6]) ∨ (b ≠ 0#8 ∧ opc ∈ [1, 2, 3, 6]) := by
  unfold decodeOpc
  split
  case h_1 | h_2 | h_3 | h_6 => simp [decodeOne_error_iff]
  case h_4 | h_5 => simp [decodeTwo_error_iff]
  case h_7 | h_8 | h_9 => simp [decodeTraced_not_error]
  case h_10 =>
    have hreserved : opc = 0 ∨ 0xA ≤ opc := by grind
    exact iff_of_true ⟨_, rfl⟩ (hreserved.imp_right .inl)

end Sys2Proof

namespace Sys2Proof.Machine

/-- A word is illegal by its reserved bits or by the opcode map (30_encoding.md R73, R77). -/
theorem illegalWord_iff_decodeOpc {w : Word} : IllegalWord w ↔
    fieldZ w ≠ 0#11 ∨ ∃ e, decodeOpc (fieldOpc w).toNat (fieldT w) (fieldB w) (fieldA w) = .error e := by
  unfold IllegalWord decode
  split
  case isTrue hz => simp [hz]
  case isFalse hz => simp [hz]

end Sys2Proof.Machine
end

section
/-! How an illegal word executes (30_encoding.md R77, 60_exceptions.md R181, R186). -/

namespace Sys2Proof.Machine

/-- After error entry STATUS reads the error and every other register 0, and the rest of the state is as it was. -/
theorem nextShowing_takeError (e : ErrorKind) (s : State) :
    NextShowing (.next (takeError e s)) s [(.status, statusError e)] := by
  refine ⟨_, rfl, OutFile.showsExactly_of_get fun reg => ?_⟩
  rw [OutFile.get_write, OutFile.get_cleared, List.lookup_cons, List.lookup_nil]
  split
  case isTrue hreg => simp [hreg]
  case isFalse hreg => simp [beq_false_of_ne hreg]

/-- An illegal word ends with `IllegalCommand`, whatever its operands. -/
theorem hostCommand_illegal {w : Word} {s : State} {t : SBox} (hrom : s.rom = some t) (hw : IllegalWord w) :
    NextShowing (hostCommand w s) s [(.status, 0x0A)] := by
  obtain ⟨e, he⟩ := hw
  have hanswer : hostCommand w s = .next (takeError .illegalCommand s) := by
    unfold hostCommand
    rw [he]
    exact runIllegal_loaded hrom
  rw [hanswer]
  exact nextShowing_takeError .illegalCommand s

/-- Settles O25: the causes are those of the decoder, and the step of a waiting illegal word is its error entry. -/
theorem illegalWordsExecuteAsIllegalCommand : Obligations.IllegalWordsExecuteAsIllegalCommand := by
  constructor
  · intro w
    rw [illegalWord_iff_decodeOpc, decodeOpc_error_iff, or_left_comm, or_left_comm (a := fieldZ w ≠ 0#11)]
  · intro w s t rest hrom hpending hw
    rw [step_of_pending hpending]
    exact hostCommand_illegal (s := s.setPending rest) hrom hw

end Sys2Proof.Machine
end

section
/-! The index maps of the bit transformations in source numbering, first bit most significant (41_bit_transforms.md R100,
R102, R104). -/

namespace Sys2Proof.Machine

/-- The one bit of `v[i]` as a vector is bit i of v (00_scope.md section 5.1). -/
@[simp] theorem getMsbD_bit_zero {n : Nat} (v : BitVec n) (i : Nat) : (bit v i).getMsbD 0 = v.getLsbD i := by
  simp [bit, BitVec.getMsbD_eq_getLsbD]

/-- Settles O3: each bit of the concatenation is one bit of the operand, renumbered from the other end. -/
theorem expandCopiesTheBitsOfItsIndexMap : Obligations.ExpandCopiesTheBitsOfItsIndexMap := by
  intro a
  simp only [expand, BitVec.getMsbD_append]
  simp [BitVec.getMsbD_eq_getLsbD a]

/-- Settles O6: each bit of the concatenation is one bit of the operand, renumbered from the other end. -/
theorem permuteMovesTheBitsOfItsIndexMap : Obligations.PermuteMovesTheBitsOfItsIndexMap := by
  intro a
  simp only [permute, BitVec.getMsbD_append]
  simp [BitVec.getMsbD_eq_getLsbD a]

/-- The row number of an input is the number `b0 b5`. -/
theorem sboxRow_eq_of_bits {x : Sextet} {row : RowNo} (hhigh : row.getMsbD 0 = x.getMsbD 0)
    (hlow : row.getMsbD 1 = x.getMsbD 5) : sboxRow x = row := by
  obtain ⟨hfirst, hsecond⟩ : (sboxRow x).getMsbD 0 = x.getMsbD 0 ∧ (sboxRow x).getMsbD 1 = x.getMsbD 5 := by
    simp only [sboxRow, BitVec.getMsbD_append]
    simp [BitVec.getMsbD_eq_getLsbD x]
  apply BitVec.eq_of_getMsbD_eq
  intro i hi
  obtain rfl | rfl : i = 0 ∨ i = 1 := by omega
  · exact hfirst.trans hhigh.symm
  · exact hsecond.trans hlow.symm

/-- The column number of an input is the number `b1 b2 b3 b4`. -/
theorem sboxCol_eq_of_bits {x : Sextet} {col : Nibble} (h : ∀ i, i < 4 → col.getMsbD i = x.getMsbD (i + 1)) :
    sboxCol x = col := by
  apply BitVec.eq_of_getMsbD_eq
  intro i hi
  have hpos : 1 + (4 - 1 - i) = 6 - 1 - (i + 1) := by omega
  have hcol : 4 - 1 - i < 4 := by omega
  have hx : i + 1 < 6 := by omega
  rw [h i hi, sboxCol]
  simp only [BitVec.getMsbD_eq_getLsbD, BitVec.getLsbD_extractLsb', hi, hpos, hcol, hx, decide_true, Bool.true_and]

/-- Settles O4: the row and column so pinned are those `subst` reads the table at. -/
theorem substReadsTheRowAndColumnOfItsInput : Obligations.SubstReadsTheRowAndColumnOfItsInput := by
  intro t x row col hhigh hlow hcol
  rw [subst, sboxRow_eq_of_bits hhigh hlow, sboxCol_eq_of_bits hcol, romEntry]

end Sys2Proof.Machine
end

section
/-! How a command that answers in RES alone ends, and the words of a one-operand command (30_encoding.md R72, R73, R74, R81,
R82). -/

namespace Sys2Proof.Machine

/-- After completion with a result, STATUS and RES read it and every other register 0. -/
theorem showsExactly_result {n : Nat} (traced : Bool) (v : BitVec n) :
    ((resultOnly v).write .status (statusDone traced)).ShowsExactly [(.status, statusDone traced), (.res, place v)] := by
  refine OutFile.showsExactly_of_get fun reg => ?_
  rw [OutFile.get_write, get_resultOnly]
  by_cases hstatus : reg = .status
  · simp [hstatus]
  · rw [List.lookup_cons, List.lookup_cons, List.lookup_nil, beq_false_of_ne hstatus, if_neg hstatus]
    by_cases hres : reg = .res
    · simp [hres]
    · simp [hres, beq_false_of_ne hres]

/-- A command whose operands passed the width check completes with its result in RES. -/
theorem completesShowing_result {i : Instr} {n : Nat} (f : SBox → BitVec n)
    (hexec : ∀ s, exec i s = runCommand false (some fun t => resultOnly (f t)) s) :
    CompletesShowing i fun t => [(.status, 0x01), (.res, (f t).setWidth 8)] := by
  intro s t hrom
  rw [hexec, runCommand_loaded hrom]
  exact ⟨_, rfl, showsExactly_result false (f t)⟩

/-- A command with one checked operand completes with its result in RES if the operand fits. -/
theorem completesShowing_oneChecked {i : Instr} {width n : Nat} {a : Byte} (f : SBox → BitVec width → BitVec n)
    (hexec : ∀ s, exec i s = runCommand false ((acceptWidth width a).map fun v t => resultOnly (f t v)) s)
    (hfits : a.toNat < 2 ^ width) :
    CompletesShowing i fun t => [(.status, 0x01), (.res, (f t (a.setWidth width)).setWidth 8)] := by
  rw [acceptWidth_of_lt hfits, Option.map_some] at hexec
  exact completesShowing_result (fun t => f t (a.setWidth width)) hexec

/-- A command with an operand that is too wide ends with `InvalidWidth` (60_exceptions.md R182, R186). -/
theorem endsWithStatus_invalidWidth {i : Instr} (hwide : i.wellFormed = false) : EndsWithStatus i 0x06 := by
  intro s t hrom
  obtain ⟨outputs, hexec, hnone⟩ := exec_eq_runCommand i
  rw [hexec, hnone.mpr hwide, runCommand_loaded hrom]
  exact nextShowing_takeError .invalidWidth s

/-- A word whose opcode names a one-operand command is that command of its field A if `Z`, `T` and `B` are zero, and illegal
otherwise. -/
theorem decode_oneOperand {w : Word} {opc : BitVec 4} {command : Byte → Instr}
    (hmap : ∀ t b a, decodeOpc opc.toNat t b a = decodeOne t b (command a)) (hw : fieldOpc w = opc) :
    (fieldZ w = 0#11 ∧ fieldT w = false ∧ fieldB w = 0#8 → decode w = .ok (command (fieldA w))) ∧
      (¬(fieldZ w = 0#11 ∧ fieldT w = false ∧ fieldB w = 0#8) → IllegalWord w) := by
  constructor
  · rintro ⟨hz, ht, hb⟩
    simp [decode, decodeOne, hz, hw, hmap, ht, hb]
  · intro hfields
    rw [illegalWord_iff_decodeOpc, hw, hmap, decodeOne_error_iff]
    simpa only [not_and_or, Bool.not_eq_false] using hfields

end Sys2Proof.Machine
end

section
/-! The commands EXPAND, SUBST and PERMUTE (41_bit_transforms.md R101, R103, R105). -/

namespace Sys2Proof.Machine

/-- Settles O26: one checked operand of 4 bits, opcode 1. -/
theorem expandCommandWritesItsResult : Obligations.ExpandCommandWritesItsResult := by
  refine ⟨fun a hfits => ?_, fun a hwide => ?_, fun w hw => ?_⟩
  · exact completesShowing_oneChecked (fun _ v => expand v) (fun _ => rfl) hfits
  · exact endsWithStatus_invalidWidth (by simp [Instr.wellFormed, hwide])
  · exact decode_oneOperand (fun _ _ _ => rfl) hw

/-- Settles O27: one checked operand of 6 bits, opcode 2, the table taken from the ROM. -/
theorem substCommandWritesItsResult : Obligations.SubstCommandWritesItsResult := by
  refine ⟨fun a hfits => ?_, fun a hwide => ?_, fun w hw => ?_⟩
  · exact completesShowing_oneChecked subst (fun _ => rfl) hfits
  · exact endsWithStatus_invalidWidth (by simp [Instr.wellFormed, hwide])
  · exact decode_oneOperand (fun _ _ _ => rfl) hw

/-- Settles O28: one checked operand of 4 bits, opcode 3. -/
theorem permuteCommandWritesItsResult : Obligations.PermuteCommandWritesItsResult := by
  refine ⟨fun a hfits => ?_, fun a hwide => ?_, fun w hw => ?_⟩
  · exact completesShowing_oneChecked (fun _ v => permute v) (fun _ => rfl) hfits
  · exact endsWithStatus_invalidWidth (by simp [Instr.wellFormed, hwide])
  · exact decode_oneOperand (fun _ _ _ => rfl) hw

end Sys2Proof.Machine
end

section
/-! The rotation and the compression of the key schedule in source numbering, and the three rounds (42_key_schedule.md R120,
R122, R124). -/

namespace Sys2Proof.Machine

/-- The shift form of R120 is the library's circular shift. -/
theorem rotL_eq_rotateLeft {n : Nat} (v : BitVec n) (s : Nat) : rotL v s = v.rotateLeft s := rfl

/-- Position j of a rotated vector holds the bit s positions after it, circularly. -/
theorem getMsbD_rotL {n : Nat} (v : BitVec n) (s : Nat) {j : Nat} (hj : j < n) :
    (rotL v s).getMsbD j = v.getMsbD ((j + s) % n) := by
  rw [rotL_eq_rotateLeft, BitVec.getMsbD_rotateLeft, decide_eq_true hj, Bool.true_and, Nat.add_comm]

/-- A rotation by whole turns moves nothing. -/
theorem rotL_of_dvd {n s : Nat} (v : BitVec n) (h : n ∣ s) : rotL v s = v := by
  refine BitVec.eq_of_getMsbD_eq fun j hj => ?_
  rw [getMsbD_rotL v s hj, Nat.add_mod, Nat.mod_eq_zero_of_dvd h, Nat.add_zero, Nat.mod_mod, Nat.mod_eq_of_lt hj]

/-- The place `(i - s) mod n` lies inside the vector, and s positions after it lies i. -/
theorem shiftedPlace_spec {n i : Nat} (s : Nat) (hi : i < n) :
    (((i : Int) - s) % n).toNat < n ∧ ((((i : Int) - s) % n).toNat + s) % n = i := by
  have hn : (n : Int) ≠ 0 := by omega
  have hcast : ((((i : Int) - s) % n).toNat : Int) = ((i : Int) - s) % n :=
    Int.toNat_of_nonneg (Int.emod_nonneg _ hn)
  constructor
  · zify
    rw [hcast]
    exact Int.emod_lt_of_pos _ (by omega)
  · zify
    rw [hcast, Int.emod_add_emod, sub_add_cancel]
    exact Int.emod_eq_of_lt (by omega) (by omega)

/-- Settles O7: where each bit comes from says where each bit goes, read at the place it goes to. -/
theorem rotLMovesEveryBitLeft : Obligations.RotLMovesEveryBitLeft := by
  intro n v s
  refine ⟨fun i hi => ?_, fun j hj => getMsbD_rotL v s hj, rotL_of_dvd v (dvd_zero n), rotL_of_dvd v dvd_rfl⟩
  obtain ⟨hplace, hback⟩ := shiftedPlace_spec s hi
  rw [getMsbD_rotL v s hplace, hback]

/-- Settles O8: each bit of the concatenation is one bit of `kl || kr`, renumbered from the other end. -/
theorem compressPicksTheBitsOfItsIndexMap : Obligations.CompressPicksTheBitsOfItsIndexMap := by
  intro kl kr k hk
  simp only [compress, ← hk, BitVec.getMsbD_append]
  simp [BitVec.getMsbD_eq_getLsbD k]

/-- Settles O9: the rounds start from the halves of the key, which are those it was joined from. -/
theorem subkeysFollowTheThreeRotations : Obligations.SubkeysFollowTheThreeRotations := by
  rintro key kl0 kr0 kl1 kr1 kl2 kr2 kl3 kr3 rfl rfl rfl rfl rfl rfl rfl
  constructor
  · simp only [subkeys, highHalf_append, lowHalf_append]
  · simp only [keySchedule, scheduleRound, shifts, highHalf_append, lowHalf_append]

end Sys2Proof.Machine
end

section
/-! A register file that shows a list, after one more write: for a command with several outputs. -/

namespace Sys2Proof.Machine

/-- A read by number after a write: the written register's number reads the value, every other reads as before. -/
theorem OutFile.readNumber_write (o : OutFile) (reg : OutReg) (v : Byte) (n : RegNo) :
    (o.write reg v).readNumber n = if reg.number = n then v else o.readNumber n := by
  split
  case isTrue h => rw [← h, OutFile.readNumber_number, OutFile.get_write_same]
  case isFalse h =>
    unfold OutFile.readNumber
    cases hn : regOfNumber n with
    | none => rfl
    | some other =>
      have hother : other ≠ reg := by
        rintro rfl
        exact h (regOfNumber_eq_some_iff.mp hn)
      exact OutFile.get_write_other o v hother

/-- The cleared file shows the empty list. -/
theorem OutFile.showsExactly_cleared : OutFile.cleared.ShowsExactly [] := OutFile.readNumber_cleared

/-- A write shows as a new first entry, whether or not the register is listed further on. -/
theorem OutFile.ShowsExactly.write {o : OutFile} {shown : List (OutReg × Byte)} (h : o.ShowsExactly shown) (reg : OutReg)
    (v : Byte) : (o.write reg v).ShowsExactly ((reg, v) :: shown) := by
  intro n
  rw [OutFile.readNumber_write, h n, shownAt, shownAt, List.find?_cons]
  by_cases hn : reg.number = n
  · simp [hn]
  · simp only [hn, beq_false_of_ne hn, if_false]

/-- A write to a register that is not listed shows as a new last entry. -/
theorem OutFile.ShowsExactly.write_last {o : OutFile} {shown : List (OutReg × Byte)} (h : o.ShowsExactly shown)
    {reg : OutReg} (hnew : ∀ entry ∈ shown, entry.1 ≠ reg) (v : Byte) :
    (o.write reg v).ShowsExactly (shown ++ [(reg, v)]) := by
  intro n
  rw [OutFile.readNumber_write, h n, shownAt, shownAt, List.find?_append]
  by_cases hn : reg.number = n
  · have habsent : shown.find? (fun entry => entry.1.number == n) = none := by
      refine List.find?_eq_none.mpr fun entry hentry he => hnew entry hentry (OutReg.number_inj ?_)
      rw [hn]
      exact beq_iff_eq.mp he
    simp [hn, habsent]
  · simp [hn]

end Sys2Proof.Machine
end

section
/-! Commands with two operands: two width checks, and the words of a command without a traced form (30_encoding.md R72, R73,
R75). -/

namespace Sys2Proof.Machine

/-- A command with two checked operands completes with its result in RES if both fit. -/
theorem completesShowing_twoChecked {i : Instr} {width width' n : Nat} {a b : Byte}
    (f : SBox → BitVec width → BitVec width' → BitVec n)
    (hexec : ∀ s, exec i s = runCommand false
      ((acceptWidth width a).bind fun u => (acceptWidth width' b).map fun v t => resultOnly (f t u v)) s)
    (ha : a.toNat < 2 ^ width) (hb : b.toNat < 2 ^ width') :
    CompletesShowing i fun t => [(.status, 0x01), (.res, (f t (a.setWidth width) (b.setWidth width')).setWidth 8)] := by
  rw [acceptWidth_of_lt ha, Option.bind_some] at hexec
  exact completesShowing_oneChecked (fun t v => f t (a.setWidth width) v) hexec hb

/-- A word whose opcode names a two-operand command without a traced form is that command of its fields A and B if `Z` and `T`
are zero, and illegal otherwise. -/
theorem decode_twoOperands {w : Word} {opc : BitVec 4} {command : Byte → Byte → Instr}
    (hmap : ∀ t b a, decodeOpc opc.toNat t b a = decodeTwo t (command a b)) (hw : fieldOpc w = opc) :
    (fieldZ w = 0#11 ∧ fieldT w = false → decode w = .ok (command (fieldA w) (fieldB w))) ∧
      (¬(fieldZ w = 0#11 ∧ fieldT w = false) → IllegalWord w) := by
  constructor
  · rintro ⟨hz, ht⟩
    simp [decode, decodeTwo, hz, hw, hmap, ht]
  · intro hfields
    rw [illegalWord_iff_decodeOpc, hw, hmap, decodeTwo_error_iff]
    simpa only [not_and_or, Bool.not_eq_false] using hfields

end Sys2Proof.Machine
end

section
/-! The commands ROTL, COMPRESS and GENKEYS (42_key_schedule.md R121, R123, R125). -/

namespace Sys2Proof.Machine

/-- Settles O29: one checked operand of 4 bits, the shift amount the whole field B unchecked, opcode 4. -/
theorem rotlCommandWritesItsResult : Obligations.RotlCommandWritesItsResult := by
  refine ⟨fun a s hfits => ?_, fun a s hwide => ?_, fun w hw => ?_⟩
  · exact completesShowing_oneChecked (fun _ v => rotL v s.toNat) (fun _ => rfl) hfits
  · exact endsWithStatus_invalidWidth (by simp [Instr.wellFormed, hwide])
  · exact decode_twoOperands (fun _ _ _ => rfl) hw

/-- Settles O30: two checked operands of 4 bits, opcode 5. -/
theorem compressCommandWritesItsResult : Obligations.CompressCommandWritesItsResult := by
  refine ⟨fun kl kr hl hr => ?_, fun kl kr hwide => ?_, fun w hw => ?_⟩
  · exact completesShowing_twoChecked (fun _ l r => compress l r) (fun _ => rfl) hl hr
  · refine endsWithStatus_invalidWidth ?_
    rw [Instr.wellFormed, Bool.and_eq_false_iff]
    simpa using hwide
  · exact decode_twoOperands (fun _ _ _ => rfl) hw

/-- The register file GENKEYS leaves, STATUS included. -/
theorem genkeys_showsExactly (ks : Sextet × Sextet × Sextet) :
    ((((OutFile.cleared.write (.k .r1) (place ks.1)).write (.k .r2) (place ks.2.1)).write (.k .r3) (place ks.2.2)).write
      .status (statusDone false)).ShowsExactly
      [(.status, 0x01), (.k .r1, ks.1.setWidth 8), (.k .r2, ks.2.1.setWidth 8), (.k .r3, ks.2.2.setWidth 8)] := by
  have hk1 := OutFile.showsExactly_cleared.write (.k .r1) (place ks.1)
  have hk2 := hk1.write_last (reg := .k .r2) (by simp) (place ks.2.1)
  have hk3 := hk2.write_last (reg := .k .r3) (by simp) (place ks.2.2)
  exact hk3.write .status (statusDone false)

/-- Settles O31: an 8-bit operand always passes the width check; three outputs, opcode 6. -/
theorem genkeysCommandWritesTheSubkeys : Obligations.GenkeysCommandWritesTheSubkeys := by
  refine ⟨fun key s t hrom => ?_, fun w hw => ?_⟩
  · refine ⟨_, runCommand_loaded hrom _ _, ?_⟩
    rw [acceptWidth_eight]
    exact genkeys_showsExactly (subkeys key)
  · exact decode_oneOperand (fun _ _ _ => rfl) hw

end Sys2Proof.Machine
end

section
/-! A register file after a row of writes: for a command that shows whole records. -/

namespace Sys2Proof.Machine

/-- The listed registers written, first entry first. -/
def OutFile.writeAll (o : OutFile) (entries : List (OutReg × Byte)) : OutFile :=
  entries.foldl (fun o entry => o.write entry.1 entry.2) o

theorem OutFile.writeAll_cons (o : OutFile) (reg : OutReg) (v : Byte) (entries : List (OutReg × Byte)) :
    o.writeAll ((reg, v) :: entries) = (o.write reg v).writeAll entries := rfl

/-- Writes to registers that differ from each other and from those listed show at the end of the list. -/
theorem OutFile.ShowsExactly.writeAll {o : OutFile} {shown entries : List (OutReg × Byte)} (h : o.ShowsExactly shown)
    (hnew : ((shown ++ entries).map Prod.fst).Nodup) : (o.writeAll entries).ShowsExactly (shown ++ entries) := by
  induction entries generalizing o shown with
  | nil =>
    rw [List.append_nil]
    exact h
  | cons entry rest ih =>
    obtain ⟨reg, v⟩ := entry
    have hreg : ∀ other ∈ shown, other.1 ≠ reg := by
      rw [List.map_append, List.map_cons] at hnew
      intro other hother
      exact (List.nodup_append.mp hnew).2.2 _ (List.mem_map_of_mem hother) _ List.mem_cons_self
    rw [List.append_cons] at hnew ⊢
    rw [OutFile.writeAll_cons]
    exact ih (h.write_last hreg v) hnew

/-- The six registers of the detailed `F` are written with the values its formulas give (43_round_function.md R140, R141). -/
theorem writeRoundTrace_eq_writeAll (t : SBox) (j : Round) (r : Nibble) (k : Sextet) (o : OutFile) :
    writeRoundTrace j (roundTrace t r k) o = o.writeAll (shownRound t j r k) := rfl

end Sys2Proof.Machine
end

section
/-! The commands FROUND and FROUND.T (43_round_function.md R142, R143), and the words of a command with both forms
(30_encoding.md R72). -/

namespace Sys2Proof.Machine

/-- A word whose opcode names a command with a plain and a traced form is the form its `T` selects, of its fields A and B, if
`Z` is zero, and illegal otherwise. -/
theorem decode_formOfT {w : Word} {opc : BitVec 4} {t : Bool} {command : Byte → Byte → Instr}
    (hmap : ∀ b a, decodeOpc opc.toNat t b a = .ok (command a b)) (hw : fieldOpc w = opc) (ht : fieldT w = t) :
    (fieldZ w = 0#11 → decode w = .ok (command (fieldA w) (fieldB w))) ∧ (fieldZ w ≠ 0#11 → IllegalWord w) := by
  constructor
  · intro hz
    rw [decode, if_pos hz, hw, ht, hmap]
  · intro hz
    exact illegalWord_iff_decodeOpc.mpr (.inl hz)

/-- Either operand too wide ends both forms with the one `InvalidWidth`. -/
theorem fround_endsWithStatus_of_wide {r k : Byte} (hwide : 16 ≤ r.toNat ∨ 64 ≤ k.toNat) :
    EndsWithStatus (.fround r k) 0x06 ∧ EndsWithStatus (.froundT r k) 0x06 := by
  have hchecks : (decide (r.toNat < 0x10) && decide (k.toNat < 0x40)) = false := by
    rw [Bool.and_eq_false_iff]
    simpa using hwide
  exact ⟨endsWithStatus_invalidWidth hchecks, endsWithStatus_invalidWidth hchecks⟩

/-- Settles O32: a checked operand of 4 bits and one of 6 bits, opcode 7 with `T` zero. -/
theorem froundCommandWritesItsResult : Obligations.FroundCommandWritesItsResult := by
  refine ⟨fun r k hr hk => ?_, fun r k hwide => ?_, fun w hw ht => ?_⟩
  · exact completesShowing_twoChecked roundF (fun _ => rfl) hr hk
  · exact (fround_endsWithStatus_of_wide hwide).1
  · exact decode_formOfT (fun _ _ => rfl) hw ht

/-- The register file FROUND.T leaves, STATUS included. -/
theorem froundT_showsExactly (t : SBox) (r : Nibble) (k : Sextet) :
    (((writeRoundTrace .r1 (roundTrace t r k) OutFile.cleared).write .res (place (roundTrace t r k).p)).write .status
      (statusDone true)).ShowsExactly
      ([(.status, 0x11), (.res, (permute (subst t (expand r ^^^ k))).setWidth 8)] ++ shownRound t .r1 r k) := by
  have hrecord : (writeRoundTrace .r1 (roundTrace t r k) OutFile.cleared).ShowsExactly (shownRound t .r1 r k) := by
    rw [writeRoundTrace_eq_writeAll]
    exact OutFile.showsExactly_cleared.writeAll (by simp [shownRound])
  exact (hrecord.write .res (place (roundTrace t r k).p)).write .status (statusDone true)

/-- Settles O33: both operands pass the width check, and the file written is RES, step record 1 and STATUS; opcode 7 with `T`
set. -/
theorem froundTracedCommandWritesItsTrace : Obligations.FroundTracedCommandWritesItsTrace := by
  refine ⟨fun r k hr hk s t hrom => ?_, fun r k hwide => ?_, fun w hw ht => ?_⟩
  · refine ⟨_, runCommand_loaded hrom _ _, ?_⟩
    rw [acceptWidth_of_lt (width := 4) hr, acceptWidth_of_lt (width := 6) hk]
    exact froundT_showsExactly t (r.setWidth 4) (k.setWidth 6)
  · exact (fround_endsWithStatus_of_wide hwide).2
  · exact decode_formOfT (fun _ _ => rfl) hw ht

end Sys2Proof.Machine
end

section
/-! The commands ENCRYPT and DECRYPT (44_encrypt_decrypt.md R152, R155). -/

namespace Sys2Proof.Machine

/-- Two halves written side by side split into themselves (00_scope.md R3, R4). -/
theorem splitBlock_append (l r : Nibble) : splitBlock (l ++ r) = (l, r) := splitBlock_joinBlock (l, r)

/-- A command on a block and a key completes with its result in RES, whatever the operands: 8 bits always pass the width
check. -/
theorem completesShowing_block {i : Instr} {b key : Byte} (f : SBox → Byte → Byte → Byte)
    (hexec : ∀ s, exec i s = runCommand false
      ((acceptWidth 8 b).bind fun u => (acceptWidth 8 key).map fun v t => resultOnly (f t u v)) s) :
    CompletesShowing i fun t => [(.status, 0x01), (.res, f t b key)] := by
  simpa only [BitVec.setWidth_eq] using completesShowing_twoChecked f hexec b.isLt key.isLt

/-- Settles O34: the rounds start from the halves the plaintext was joined from; opcode 8 with `T` zero. -/
theorem encryptCommandWritesItsResult : Obligations.EncryptCommandWritesItsResult := by
  refine ⟨?_, fun w hw ht => decode_formOfT (fun _ _ => rfl) hw ht⟩
  rintro p key l0 r0 rfl
  have hcompletes := completesShowing_block (i := .encrypt (l0 ++ r0) key) encrypt fun _ => rfl
  simpa only [encrypt, splitBlock_append, encStep, roundF, joinBlock] using hcompletes

/-- Settles O36: the steps start from the halves the ciphertext was joined from; opcode 9 with `T` zero. -/
theorem decryptCommandWritesItsResult : Obligations.DecryptCommandWritesItsResult := by
  refine ⟨?_, fun w hw ht => decode_formOfT (fun _ _ => rfl) hw ht⟩
  rintro c key la ra rfl
  have hcompletes := completesShowing_block (i := .decrypt (la ++ ra) key) decrypt fun _ => rfl
  simpa only [decrypt, splitBlock_append, decStep, roundF, joinBlock] using hcompletes

end Sys2Proof.Machine
end

section
/-! The register file of a complete trace: the key schedule, then three step records (10_state.md R30, R31,
44_encrypt_decrypt.md R153, R156). -/

namespace Sys2Proof.Machine

/-- Two rows of writes are one. -/
theorem OutFile.writeAll_append (o : OutFile) (entries later : List (OutReg × Byte)) :
    o.writeAll (entries ++ later) = (o.writeAll entries).writeAll later := List.foldl_append

/-- The nine key-schedule registers are written with the halves and subkeys of the three rotations. -/
theorem writeKeySchedule_eq_writeAll (kl0 kr0 : Nibble) (o : OutFile) :
    writeKeySchedule (kl0 ++ kr0) o = o.writeAll (shownSchedule kl0 kr0) := by
  obtain ⟨-, hschedule⟩ := subkeysFollowTheThreeRotations _ kl0 kr0 _ _ _ _ _ _ rfl rfl rfl rfl rfl rfl rfl
  rw [writeKeySchedule, hschedule]
  rfl

/-- The eight registers of step record j as a record fills them (10_state.md R31). -/
def shownRecord (j : Round) (c : StepRecord) : List (OutReg × Byte) :=
  [(.e j, place c.round.e), (.x j, place c.round.x), (.row j, place c.round.row), (.col j, place c.round.col),
   (.sv j, place c.round.sv), (.p j, place c.round.p), (.l j, place c.l), (.r j, place c.r)]

theorem writeStepRecord_eq_writeAll (j : Round) (c : StepRecord) (o : OutFile) :
    writeStepRecord j c o = o.writeAll (shownRecord j c) := rfl

/-- The record of an encryption step shows F on the right half and the round's new pair (44_encrypt_decrypt.md R160). -/
theorem shownRecord_encRecord (t : SBox) (j : Round) (s : RoundState) (k : Sextet) :
    shownRecord j (encRecord t s k) = shownRound t j s.2 k ++ shownHalves j (encStep t s k).1 (encStep t s k).2 := rfl

/-- The record of a decryption step shows F on the left half and the pair after the swap (44_encrypt_decrypt.md R161). -/
theorem shownRecord_decRecord (t : SBox) (j : Round) (s : RoundState) (k : Sextet) :
    shownRecord j (decRecord t s k) = shownRound t j s.1 k ++ shownHalves j (decStep t s k).1 (decStep t s k).2 := rfl

/-- All registers of a complete trace but STATUS and RES. -/
def shownTrace (kl0 kr0 : Nibble) (c : StepRecord × StepRecord × StepRecord) : List (OutReg × Byte) :=
  shownSchedule kl0 kr0 ++ shownRecord .r1 c.1 ++ shownRecord .r2 c.2.1 ++ shownRecord .r3 c.2.2

/-- No register of a trace is listed twice. -/
theorem nodup_shownTrace (kl0 kr0 : Nibble) (c : StepRecord × StepRecord × StepRecord) :
    ((shownTrace kl0 kr0 c).map Prod.fst).Nodup := by
  simp [shownTrace, shownSchedule, shownRecord]

/-- A complete trace is its registers written into the cleared file, and RES. -/
theorem writeTrace_eq_writeAll (kl0 kr0 : Nibble) (c : StepRecord × StepRecord × StepRecord) :
    writeTrace (kl0 ++ kr0) c = (OutFile.cleared.writeAll (shownTrace kl0 kr0 c)).write .res (joinBlock c.2.2.halves) := by
  simp only [writeTrace, writeStepRecord_eq_writeAll, writeKeySchedule_eq_writeAll, shownTrace, OutFile.writeAll_append]

/-- The register file a traced encryption or decryption leaves, STATUS included. -/
theorem writeTrace_showsExactly (kl0 kr0 : Nibble) (c : StepRecord × StepRecord × StepRecord) :
    ((writeTrace (kl0 ++ kr0) c).write .status (statusDone true)).ShowsExactly
      ([(.status, 0x11), (.res, joinBlock c.2.2.halves)] ++ shownTrace kl0 kr0 c) := by
  rw [writeTrace_eq_writeAll]
  have htrace := OutFile.showsExactly_cleared.writeAll (nodup_shownTrace kl0 kr0 c)
  exact (htrace.write .res (joinBlock c.2.2.halves)).write .status (statusDone true)

/-- A traced command on a block and a key completes with its three records, whatever the operands. -/
theorem completesShowing_trace {i : Instr} {b : Byte} {kl0 kr0 : Nibble}
    (records : SBox → Byte → Byte → StepRecord × StepRecord × StepRecord)
    (hexec : ∀ s, exec i s = runCommand true
      ((acceptWidth 8 b).bind fun u => (acceptWidth 8 (kl0 ++ kr0)).map fun v t => writeTrace v (records t u v)) s) :
    CompletesShowing i fun t =>
      [(.status, 0x11), (.res, joinBlock (records t b (kl0 ++ kr0)).2.2.halves)] ++
        shownTrace kl0 kr0 (records t b (kl0 ++ kr0)) := by
  intro s t hrom
  rw [hexec, acceptWidth_eight, acceptWidth_eight, runCommand_loaded hrom]
  exact ⟨_, rfl, writeTrace_showsExactly kl0 kr0 (records t b (kl0 ++ kr0))⟩

end Sys2Proof.Machine
end

section
/-! The commands ENCRYPT.T and DECRYPT.T (44_encrypt_decrypt.md R153, R156). -/

namespace Sys2Proof.Machine

/-- Record j of an encryption is the record of round j of the plain rounds, under Kj (44_encrypt_decrypt.md R160). -/
theorem encRecords_eq_rounds (t : SBox) (p key : Byte) :
    encRecords t p key =
      (encRecord t (splitBlock p) (subkeys key).1,
        encRecord t (encStep t (splitBlock p) (subkeys key).1) (subkeys key).2.1,
        encRecord t (encStep t (encStep t (splitBlock p) (subkeys key).1) (subkeys key).2.1) (subkeys key).2.2) := rfl

/-- Record j of a decryption is the record of step j of the plain steps, under K(4-j) (44_encrypt_decrypt.md R161). -/
theorem decRecords_eq_steps (t : SBox) (c key : Byte) :
    decRecords t c key =
      (decRecord t (splitBlock c) (subkeys key).2.2,
        decRecord t (decStep t (splitBlock c) (subkeys key).2.2) (subkeys key).2.1,
        decRecord t (decStep t (decStep t (splitBlock c) (subkeys key).2.2) (subkeys key).2.1) (subkeys key).1) := rfl

/-- Settles O35: each record shows its round, and RES the halves of the third; opcode 8 with `T` set. -/
theorem encryptTracedCommandWritesItsTrace : Obligations.EncryptTracedCommandWritesItsTrace := by
  refine ⟨?_, fun w hw ht => decode_formOfT (fun _ _ => rfl) hw ht⟩
  rintro p key l0 r0 kl0 kr0 rfl rfl
  have hcompletes := completesShowing_trace (i := .encryptT (l0 ++ r0) (kl0 ++ kr0)) encRecords fun _ => rfl
  simpa only [encRecords_eq_rounds, splitBlock_append, shownTrace, shownRecord_encRecord, halves_encRecord, encStep, roundF,
    joinBlock, ← List.append_assoc] using hcompletes

/-- Settles O37: each record shows its step, and RES the halves of the third; opcode 9 with `T` set. -/
theorem decryptTracedCommandWritesItsTrace : Obligations.DecryptTracedCommandWritesItsTrace := by
  refine ⟨?_, fun w hw ht => decode_formOfT (fun _ _ => rfl) hw ht⟩
  rintro c key la ra kl0 kr0 rfl rfl
  have hcompletes := completesShowing_trace (i := .decryptT (la ++ ra) (kl0 ++ kr0)) decRecords fun _ => rfl
  simpa only [decRecords_eq_steps, splitBlock_append, shownTrace, shownRecord_decRecord, halves_decRecord, decStep, roundF,
    joinBlock, ← List.append_assoc] using hcompletes

end Sys2Proof.Machine
end

section
/-! A traced command beside the plain one on the same operands (44_encrypt_decrypt.md R158). -/

namespace Sys2Proof.Machine

/-- RES after a command that answers is what its outputs hold there, and 0 if there are none. -/
theorem runCommand_next_res {s s' : State} {traced : Bool} {outputs : Option (SBox → OutFile)}
    (h : runCommand traced outputs s = .next s') :
    ∃ t, s.rom = some t ∧ s'.out.get .res = (outputs.map fun f => (f t).get .res).getD 0 := by
  obtain ⟨t, hrom, ⟨rfl, rfl⟩ | ⟨f, rfl, rfl⟩⟩ := runCommand_next h
  · exact ⟨t, hrom, OutFile.get_cleared .res⟩
  · exact ⟨t, hrom, OutFile.get_write_other (reg := .status) (f t) (statusDone traced) (by simp)⟩

/-- Two commands with the same width checks show the same RES if their outputs agree there for all operands that fit. -/
theorem same_res_of_outputs {width width' : Nat} {a b : Byte} {s p q : State} {tp tq : Bool}
    {f g : BitVec width → BitVec width' → SBox → OutFile}
    (hp : runCommand tp ((acceptWidth width a).bind fun u => (acceptWidth width' b).map (f u)) s = .next p)
    (hq : runCommand tq ((acceptWidth width a).bind fun u => (acceptWidth width' b).map (g u)) s = .next q)
    (hres : ∀ t u v, (f u v t).get .res = (g u v t).get .res) : p.out.get .res = q.out.get .res := by
  obtain ⟨t, hrom, hpres⟩ := runCommand_next_res hp
  obtain ⟨t', hrom', hqres⟩ := runCommand_next_res hq
  obtain rfl : t = t' := Option.some.inj (hrom.symm.trans hrom')
  rw [hpres, hqres]
  simp only [Option.map_bind, Option.map_map, Function.comp_def, hres]

/-- The detailed `F` computes `F` (43_round_function.md R141). -/
theorem roundTrace_p (t : SBox) (r : Nibble) (k : Sextet) : (roundTrace t r k).p = roundF t r k := rfl

/-- The last record of an encryption holds the halves of the result. -/
theorem joinBlock_encRecords (t : SBox) (p key : Byte) : joinBlock (encRecords t p key).2.2.halves = encrypt t p key := by
  rw [encRecords_eq_rounds, halves_encRecord, encrypt]

/-- The last record of a decryption holds the halves of the result. -/
theorem joinBlock_decRecords (t : SBox) (c key : Byte) : joinBlock (decRecords t c key).2.2.halves = decrypt t c key := by
  rw [decRecords_eq_steps, halves_decRecord, decrypt]

/-- RES of a plain command holds its result. -/
theorem res_resultOnly {n : Nat} (v : BitVec n) : (resultOnly v).get .res = v.setWidth 8 :=
  (get_resultOnly v .res).trans (if_pos rfl)

/-- RES of a complete trace holds the halves of the third record. -/
theorem res_writeTrace (key : Byte) (c : StepRecord × StepRecord × StepRecord) :
    (writeTrace key c).get .res = joinBlock c.2.2.halves := OutFile.get_write_same _ _ _

/-- Settles O55: each of the three pairs checks the same widths, and the traced run ends in the plain result. -/
theorem tracedCommandsShowThePlainResult : Obligations.TracedCommandsShowThePlainResult := by
  rintro a b s p q (⟨hp, hq⟩ | ⟨hp, hq⟩ | ⟨hp, hq⟩)
  · refine same_res_of_outputs hp hq fun t r k => ?_
    rw [res_resultOnly, OutFile.get_write_same, roundTrace_p, place]
  · refine same_res_of_outputs hp hq fun t u key => ?_
    rw [res_resultOnly, BitVec.setWidth_eq, res_writeTrace, joinBlock_encRecords]
  · refine same_res_of_outputs hp hq fun t u key => ?_
    rw [res_resultOnly, BitVec.setWidth_eq, res_writeTrace, joinBlock_decRecords]

end Sys2Proof.Machine
end

section
/-! How every command word ends (60_exceptions.md R182): the columns of the error table beside the decoder and the width
checks. -/

namespace Sys2Proof.Machine

/-- The column "IllegalCommand when" lists the errors of the opcode map. -/
theorem decodeOpc_error_iff_illegalByTable {w : Word} :
    (∃ e, decodeOpc (fieldOpc w).toNat (fieldT w) (fieldB w) (fieldA w) = .error e) ↔ IllegalByTable w := by
  rw [decodeOpc_error_iff]
  unfold IllegalByTable
  split
  case h_1 hopc | h_2 hopc | h_3 hopc | h_4 hopc | h_5 hopc | h_6 hopc | h_7 hopc | h_8 hopc | h_9 hopc => simp [hopc]
  case h_10 =>
    have hreserved : (fieldOpc w).toNat = 0 ∨ 0xA ≤ (fieldOpc w).toNat := by grind
    exact iff_of_true (hreserved.imp_right .inl) trivial

/-- A word is illegal exactly if the table says so. -/
theorem illegalWord_iff_table {w : Word} : IllegalWord w ↔ fieldZ w ≠ 0#11 ∨ IllegalByTable w := by
  rw [illegalWord_iff_decodeOpc, decodeOpc_error_iff_illegalByTable]

/-- The column "InvalidWidth when" lists the legal words with an operand that is too wide. -/
theorem wellFormed_eq_false_iff_tooWideByTable {w : Word} {i : Instr} (hw : decode w = .ok i) :
    i.wellFormed = false ↔ TooWideByTable w := by
  obtain ⟨-, hopc, -, hb, ha⟩ := fields_of_decode hw
  unfold TooWideByTable
  rw [← hopc, ← hb, ← ha]
  cases i with
  | expand | subst | permute | rotl => simp [Instr.wellFormed, Instr.opc, Instr.operandA]
  | compress | fround | froundT =>
    simp [Instr.wellFormed, Instr.opc, Instr.operandA, Instr.operandB, imp_iff_not_or]
  | genkeys | encrypt | encryptT | decrypt | decryptT => simp [Instr.wellFormed, Instr.opc]

/-- A word that the table does not call illegal is a command. -/
theorem exists_decode_of_legalByTable {w : Word} (hz : fieldZ w = 0#11) (hlegal : ¬IllegalByTable w) :
    ∃ i, decode w = .ok i := by
  cases hw : decode w with
  | ok i => exact ⟨i, rfl⟩
  | error e => exact absurd (illegalWord_iff_table.mp ⟨e, hw⟩) (not_or.mpr ⟨not_not.mpr hz, hlegal⟩)

/-- A legal word executes as the command it decodes to. -/
theorem hostCommand_of_decode {w : Word} {i : Instr} (hw : decode w = .ok i) (s : State) :
    hostCommand w s = exec i s := by
  unfold hostCommand
  rw [hw]

/-- A command whose operands all fit completes. -/
theorem exec_completes {i : Instr} {s : State} {t : SBox} (hfits : i.wellFormed = true) (hrom : s.rom = some t) :
    ∃ o, exec i s = .next (completeWith i.traced o s) := by
  obtain ⟨outputs, hexec, hnone⟩ := exec_eq_runCommand i
  rw [hexec, runCommand_loaded hrom]
  cases outputs with
  | none => simp [hfits] at hnone
  | some f => exact ⟨f t, rfl⟩

/-- Settles O39: a word is illegal by the table or decodes to a command, whose width checks are the table's other column. -/
theorem errorTableDecidesHowACommandEnds : Obligations.ErrorTableDecidesHowACommandEnds := by
  intro w s t hrom
  refine ⟨fun hillegal => hostCommand_illegal hrom (illegalWord_iff_table.mpr hillegal), fun hz hlegal hwide => ?_,
    fun hz hlegal hfits => ?_⟩
  · obtain ⟨i, hw⟩ := exists_decode_of_legalByTable hz hlegal
    rw [hostCommand_of_decode hw]
    exact endsWithStatus_invalidWidth ((wellFormed_eq_false_iff_tooWideByTable hw).mpr hwide) s t hrom
  · obtain ⟨i, hw⟩ := exists_decode_of_legalByTable hz hlegal
    rw [← wellFormed_eq_false_iff_tooWideByTable hw, Bool.not_eq_false] at hfits
    obtain ⟨o, ho⟩ := exec_completes hfits hrom
    obtain ⟨-, -, htraced, -, -⟩ := fields_of_decode hw
    refine ⟨_, (hostCommand_of_decode hw s).trans ho, ?_⟩
    rw [OutFile.get_write_same, htraced]
    cases fieldT w <;> rfl

end Sys2Proof.Machine
end

section
/-! What an error leaves behind, and what it does not (60_exceptions.md R185, R186, R187, R189). -/

namespace Sys2Proof.Machine

/-- A command word that answers with ERR set made one error entry, and the error is `IllegalCommand` exactly for an illegal
word. -/
theorem hostCommand_next_of_err {w : Word} {s s' : State} (h : hostCommand w s = .next s')
    (herr : statusErr (s'.out.get .status) = true) :
    ∃ e, s' = takeError e s ∧ (IllegalWord w → e = .illegalCommand) ∧ (¬IllegalWord w → e = .invalidWidth) := by
  obtain ⟨-, ⟨e, hw, hs⟩ | ⟨i, hw, -, hs⟩ | ⟨i, o, -, -, rfl⟩⟩ := hostCommand_next h
  · exact ⟨_, hs, fun _ => rfl, fun hlegal => absurd ⟨e, hw⟩ hlegal⟩
  · exact ⟨_, hs, fun ⟨e, he⟩ => (nomatch hw.symm.trans he), fun _ => rfl⟩
  · simp [statusDone] at herr

/-- After error entry every register number but that of STATUS reads 0. -/
theorem takeError_readNumber_of_ne {n : RegNo} (hn : n ≠ 0) (e : ErrorKind) (s : State) :
    (takeError e s).out.readNumber n = 0 := by
  have hother : OutReg.status.number ≠ n := hn.symm
  rw [takeError, State.setOut_out, OutFile.readNumber_write, if_neg hother]
  exact OutFile.readNumber_cleared n

/-- Settles O41: such a command made one error entry, which clears the file and writes STATUS. -/
theorem errorLeavesOnlyItsStatus : Obligations.ErrorLeavesOnlyItsStatus := by
  intro w s s' h herr
  obtain ⟨e, rfl, hillegal, hlegal⟩ := hostCommand_next_of_err h herr
  refine ⟨fun hw => ?_, fun hw => ?_, ?_, ?_, fun n hn => takeError_readNumber_of_ne hn e s, rfl⟩
  · rw [takeError_status, hillegal hw]; rfl
  · rw [takeError_status, hlegal hw]; rfl
  · rw [takeError_status, statusError, statusOk_statusWord]
  · rw [takeError_status, statusError, statusTv_statusWord]

/-- The common execution rule clears the register file before it writes: it does not look at the old one
(30_encoding.md R81 step 1). -/
theorem runCommand_setOut (traced : Bool) (outputs : Option (SBox → OutFile)) (s : State) (o : OutFile) :
    runCommand traced outputs (s.setOut o) = runCommand traced outputs s := rfl

/-- No command word reads an output register (10_state.md R33). -/
theorem hostCommand_setOut (w : Word) (s : State) (o : OutFile) : hostCommand w (s.setOut o) = hostCommand w s := by
  unfold hostCommand
  cases decode w with
  | error e => rfl
  | ok i =>
    obtain ⟨outputs, hexec, -⟩ := exec_eq_runCommand i
    exact (hexec _).trans ((runCommand_setOut ..).trans (hexec s).symm)

/-- Settles O42: the first command changed the register file only, and the next one does not read it. -/
theorem errorsAreNotSticky : Obligations.ErrorsAreNotSticky := by
  intro w w' s s' h _
  rw [hostCommand_frame h, hostCommand_setOut]

/-- Settles O43: decoding comes before the width checks, and these make one error entry between them. -/
theorem illegalCommandHasPriority : Obligations.IllegalCommandHasPriority := by
  refine ⟨fun w s t hrom hw => hostCommand_illegal hrom hw, fun a b ha _ => ?_, fun a b ha _ => ?_, _, rfl⟩
  · exact endsWithStatus_invalidWidth (by simp [Instr.wellFormed, ha])
  · exact fround_endsWithStatus_of_wide (.inl ha)

end Sys2Proof.Machine
end

section
/-! `RESET` against a command (70_reset_and_hazards.md R210): the cleared file, and a STATUS that tells the two apart. -/

namespace Sys2Proof.Machine

/-- Right after a command STATUS is not 0: OK or ERR is set (10_state.md R28). -/
theorem hostCommand_status_ne_zero {w : Word} {s s' : State} (h : hostCommand w s = .next s') :
    s'.out.get .status ≠ 0 := by
  obtain ⟨hcommand, -, -⟩ := statusReportsTheLastCommand
  obtain ⟨hstatus, -⟩ := hcommand w s s' h
  exact ne_of_mem_of_not_mem hstatus (by decide)

/-- `RESET` answers in every state: the file is the cleared one and nothing else changes. -/
theorem nextShowing_reset (s : State) : NextShowing (perform .reset s) s [] :=
  ⟨OutFile.cleared, rfl, OutFile.showsExactly_cleared⟩

/-- Settles O52: the step is the reset of the state without it, and STATUS, 0 after a reset and not 0 after a command, tells
the two files apart. -/
theorem resetClearsEveryRegister : Obligations.ResetClearsEveryRegister := by
  refine ⟨fun s rest hpending => ?_, fun w s s' s'' hcommand hreset hsame => ?_⟩
  · rw [step_of_pending hpending]
    exact nextShowing_reset (s.setPending rest)
  · obtain ⟨-, hresetStatus, -⟩ := statusReportsTheLastCommand
    have hzero : s'.out.get .status = 0 := by
      rw [← hsame]
      exact hresetStatus s' s'' hreset
    exact hostCommand_status_ne_zero hcommand hzero

end Sys2Proof.Machine
end

section
/-! The encoder beside the decoder (30_encoding.md R70, R76): each undoes the other. -/

namespace Sys2Proof

/-- A word assembled from fields decodes by the opcode map alone, as its `Z` is zero. -/
theorem decode_assembleWord (o : BitVec 4) (t : Bool) (b a : Byte) :
    decode (assembleWord o t b a) = decodeOpc o.toNat t b a := by
  obtain ⟨hopc, ht, hz, hb, ha⟩ := fields_assembleWord o t b a
  rw [decode, if_pos hz, hopc, ht, hb, ha]

/-- Settles O19: the opcode map sends the opcode and `T` of each command back to it, with its operands. -/
theorem decodeOfEncodeIsTheCommand : Obligations.DecodeOfEncodeIsTheCommand := by
  intro i
  rw [encode, decode_assembleWord]
  cases i <;> rfl

/-- Settles O20: the word and the encoding agree in all five fields, which cover the 32 bits. -/
theorem legalWordIsTheEncodingOfItsCommand : Obligations.LegalWordIsTheEncodingOfItsCommand := by
  intro w i hw
  obtain ⟨hz, hopc, ht, hb, ha⟩ := fields_of_decode hw
  obtain ⟨hopc', ht', hz', hb', ha'⟩ := fields_assembleWord i.opc i.traced i.operandB i.operandA
  exact word_eq_of_fields (hopc'.trans hopc) (ht'.trans ht) (hz'.trans hz.symm) (hb'.trans hb) (ha'.trans ha)

end Sys2Proof
end

section
/-! The word of a command in shifts and ors (30_encoding.md R79). -/

namespace Sys2Proof

/-- The parts of a word, each shifted to its place: the reserved bits add nothing. -/
theorem assembleWord_eq_or (o : BitVec 4) (t : Bool) (b a : Byte) :
    assembleWord o t b a = (o.setWidth 32 <<< 28) ||| ((BitVec.ofBool t).setWidth 32 <<< 27) |||
      (b.setWidth 32 <<< 8) ||| a.setWidth 32 := by
  rw [← BitVec.setWidth_eq (assembleWord o t b a), assembleWord]
  simp only [BitVec.setWidth_append_eq_shiftLeft_setWidth_or, BitVec.shiftLeft_or_distrib, ← BitVec.shiftLeft_add]
  simp

/-- Settles O21: the shifted fields do not overlap, so their or is the concatenation. -/
theorem encodeIsShiftsAndOrs : Obligations.EncodeIsShiftsAndOrs :=
  fun i => assembleWord_eq_or i.opc i.traced i.operandB i.operandA

end Sys2Proof
end

section
/-! When a word is legal (30_encoding.md R76). -/

namespace Sys2Proof.Machine

theorem exists_decode_iff_not_illegalWord {w : Word} : (∃ i, decode w = .ok i) ↔ ¬IllegalWord w := by
  unfold IllegalWord
  cases decode w with
  | ok i => simp
  | error e => simp

/-- Legality is a matter of four fields: `A` is not among them. -/
theorem illegalWord_congr {w w' : Word} (hopc : fieldOpc w = fieldOpc w') (ht : fieldT w = fieldT w')
    (hz : fieldZ w = fieldZ w') (hb : fieldB w = fieldB w') : IllegalWord w ↔ IllegalWord w' := by
  rw [illegalWord_iff_decodeOpc, illegalWord_iff_decodeOpc, decodeOpc_error_iff, decodeOpc_error_iff, hopc, ht, hz, hb]

/-- Words with the same bits 31:8 have the same bit at every place from 8 on. -/
theorem getLsbD_eq_of_bits_31_8 {w w' : Word} (h : w.extractLsb' 8 24 = w'.extractLsb' 8 24) {i : Nat} (hi : 8 ≤ i) :
    w.getLsbD i = w'.getLsbD i := by
  by_cases hlt : i < 32
  · have := congrArg (fun v => v.getLsbD (i - 8)) h
    simpa only [BitVec.getLsbD_extractLsb', (by omega : i - 8 < 24), (by omega : 8 + (i - 8) = i), decide_true,
      Bool.true_and] using this
  · rw [BitVec.getLsbD_of_ge w i (by omega), BitVec.getLsbD_of_ge w' i (by omega)]

/-- Words with the same bits 31:8 have the same part at every place from 8 on. -/
theorem extractLsb'_eq_of_bits_31_8 {w w' : Word} (h : w.extractLsb' 8 24 = w'.extractLsb' 8 24) {start : Nat}
    (hstart : 8 ≤ start) (len : Nat) : w.extractLsb' start len = w'.extractLsb' start len := by
  refine BitVec.eq_of_getLsbD_eq fun i _ => ?_
  rw [BitVec.getLsbD_extractLsb', BitVec.getLsbD_extractLsb', getLsbD_eq_of_bits_31_8 h (by omega)]

/-- Among the nine opcodes, those not rejected for `T` have a traced form, and those not rejected for `B` take it. -/
theorem opcode_complements {opc : Nat} (hopc : 1 ≤ opc ∧ opc ≤ 9) :
    (opc ∉ [1, 2, 3, 4, 5, 6] ↔ opc ∈ [7, 8, 9]) ∧ (opc ∉ [1, 2, 3, 6] ↔ opc ∈ [4, 5, 7, 8, 9]) := by
  obtain ⟨hlow, hhigh⟩ := hopc
  interval_cases opc <;> decide

/-- Settles O22: the four conditions are the absence of every cause of rejection, and `A` is no cause of one. -/
theorem legalWordConditions : Obligations.LegalWordConditions := by
  constructor
  · intro w
    rw [exists_decode_iff_not_illegalWord, illegalWord_iff_decodeOpc, decodeOpc_error_iff]
    by_cases hopc : 1 ≤ (fieldOpc w).toNat ∧ (fieldOpc w).toNat ≤ 9
    · obtain ⟨htraced, hoperand⟩ := opcode_complements hopc
      have hlow : (fieldOpc w).toNat ≠ 0 := by omega
      have hhigh : ¬0xA ≤ (fieldOpc w).toNat := by omega
      simp only [not_or, not_and_or, not_not, Bool.not_eq_true, htraced, hoperand, hopc, hlow, hhigh, not_false_eq_true,
        true_and]
    · have hreserved : (fieldOpc w).toNat = 0 ∨ 0xA ≤ (fieldOpc w).toNat := by omega
      exact iff_of_false (not_not.mpr (.inr (hreserved.imp_right .inl))) fun hlegal => hopc hlegal.1
  · intro w w' h
    exact illegalWord_congr (extractLsb'_eq_of_bits_31_8 h (by decide) 4) (getLsbD_eq_of_bits_31_8 h (by decide))
      (extractLsb'_eq_of_bits_31_8 h (by decide) 11) (extractLsb'_eq_of_bits_31_8 h (by decide) 8)

end Sys2Proof.Machine
end

section
/-! The rows of the opcode table (30_encoding.md R76): each is the row of a command, and a masked comparison compares fields. -/

namespace Sys2Proof

/-- A command that takes no operand `B` (30_encoding.md R74). -/
def Instr.oneOperand : Instr → Bool
  | .expand _ => true
  | .subst _ => true
  | .permute _ => true
  | .genkeys _ => true
  | _ => false

/-- The row a command has by its fields: opcode and `T` fixed, `Z` zero, and `B` zero if the command does not take it. -/
def Instr.row (i : Instr) : OpcodeRow :=
  ⟨i.mnemonic, assembleWord i.opc i.traced 0 0, if i.oneOperand then 0xFFFFFF00 else 0xFFFF0000⟩

/-- The table lists the rows of the twelve commands. -/
theorem opcodeRows_eq_map_row : opcodeRows =
    [.expand 0, .subst 0, .permute 0, .rotl 0 0, .compress 0 0, .genkeys 0, .fround 0 0, .froundT 0 0, .encrypt 0 0,
      .encryptT 0 0, .decrypt 0 0, .decryptT 0 0].map Instr.row := rfl

theorem Instr.row_mem (i : Instr) : i.row ∈ opcodeRows := by
  cases i <;> simp [opcodeRows_eq_map_row, row, mnemonic, opc, traced, oneOperand]

theorem exists_row_eq_of_mem {row : OpcodeRow} (h : row ∈ opcodeRows) : ∃ i : Instr, i.row = row := by
  rw [opcodeRows_eq_map_row] at h
  obtain ⟨i, -, hi⟩ := List.mem_map.mp h
  exact ⟨i, hi⟩

/-- No two rows have the same mnemonic. -/
theorem row_eq_of_mnemonic_eq {row row' : OpcodeRow} (h : row ∈ opcodeRows) (h' : row' ∈ opcodeRows)
    (heq : row.mnemonic = row'.mnemonic) : row = row' :=
  List.inj_on_of_nodup_map (f := OpcodeRow.mnemonic) (by decide) h h' heq

/-- Two words are equal exactly if their five fields are. -/
theorem word_eq_iff_fields {w w' : Word} : w = w' ↔ fieldOpc w = fieldOpc w' ∧ fieldT w = fieldT w' ∧
    fieldZ w = fieldZ w' ∧ fieldB w = fieldB w' ∧ fieldA w = fieldA w' :=
  ⟨fun h => by simp [h], fun ⟨hopc, ht, hz, hb, ha⟩ => word_eq_of_fields hopc ht hz hb ha⟩

/-- A mask acts on each field by its own bits there. -/
theorem fields_and (w m : Word) : fieldOpc (w &&& m) = fieldOpc w &&& fieldOpc m ∧
    fieldT (w &&& m) = (fieldT w && fieldT m) ∧ fieldZ (w &&& m) = fieldZ w &&& fieldZ m ∧
    fieldB (w &&& m) = fieldB w &&& fieldB m ∧ fieldA (w &&& m) = fieldA w &&& fieldA m :=
  ⟨BitVec.extractLsb'_and, BitVec.getLsbD_and, BitVec.extractLsb'_and, BitVec.extractLsb'_and, BitVec.extractLsb'_and⟩

/-- A word masked for `OPC`, `T` and `Z`, and for `B` too or not, is compared in these fields. -/
theorem and_mask_eq_assembleWord_iff {w m : Word} {o : BitVec 4} {t : Bool} (hopc : fieldOpc m = .allOnes 4)
    (ht : fieldT m = true) (hz : fieldZ m = .allOnes 11) (ha : fieldA m = 0#8) : w &&& m = assembleWord o t 0 0 ↔
      fieldOpc w = o ∧ fieldT w = t ∧ fieldZ w = 0#11 ∧ fieldB w &&& fieldB m = 0#8 := by
  obtain ⟨hopc', ht', hz', hb', ha'⟩ := fields_assembleWord o t 0 0
  obtain ⟨hopcm, htm, hzm, hbm, ham⟩ := fields_and w m
  rw [word_eq_iff_fields, hopcm, htm, hzm, hbm, ham, hopc, ht, hz, ha, hopc', ht', hz', hb', ha',
    BitVec.and_allOnes, BitVec.and_allOnes, Bool.and_true, BitVec.and_zero]
  exact and_congr_right' (and_congr_right' (and_congr_right' (and_iff_left rfl)))

/-- A word matches the row of a command exactly if it agrees with the command in the fields that are no operands. -/
theorem Instr.matches_row_iff (i : Instr) (w : Word) : w &&& i.row.mask = i.row.pattern ↔
    fieldOpc w = i.opc ∧ fieldT w = i.traced ∧ fieldZ w = 0#11 ∧ (i.oneOperand = true → fieldB w = 0#8) := by
  unfold row
  cases i.oneOperand with
  | true =>
    have hmask : fieldB 0xFFFFFF00 = .allOnes 8 := by decide
    refine (and_mask_eq_assembleWord_iff (m := 0xFFFFFF00) (by decide) (by decide) (by decide) (by decide)).trans ?_
    rw [hmask, BitVec.and_allOnes, eq_self, true_imp_iff]
  | false =>
    have hmask : fieldB 0xFFFF0000 = 0#8 := by decide
    refine (and_mask_eq_assembleWord_iff (m := 0xFFFF0000) (by decide) (by decide) (by decide) (by decide)).trans ?_
    rw [hmask, BitVec.and_zero]
    simp only [Bool.false_eq_true, false_imp_iff, eq_self]

/-- A one-operand command has `B` zero. -/
theorem Instr.operandB_of_oneOperand {i : Instr} (h : i.oneOperand = true) : i.operandB = 0 := by
  cases i
  case expand | subst | permute | genkeys => rfl
  all_goals cases h

/-- The opcode map reads a command with the row of i from the fields that match it, whatever the operands. -/
theorem Instr.exists_decodeOpc (i : Instr) {b : Byte} (hb : i.oneOperand = true → b = 0#8) (a : Byte) :
    ∃ j : Instr, decodeOpc i.opc.toNat i.traced b a = .ok j ∧ j.row = i.row := by
  cases i
  case expand | subst | permute | genkeys => rw [hb rfl]; exact ⟨_, rfl, rfl⟩
  all_goals exact ⟨_, rfl, rfl⟩

/-- A word matches the row of a command exactly if it decodes to a command of that row. -/
theorem Instr.matches_row_iff_decode (i : Instr) (w : Word) :
    w &&& i.row.mask = i.row.pattern ↔ ∃ j, decode w = .ok j ∧ j.row = i.row := by
  constructor
  · intro h
    obtain ⟨hopc, ht, hz, hb⟩ := (i.matches_row_iff w).mp h
    obtain ⟨j, hj, hrow⟩ := i.exists_decodeOpc hb (fieldA w)
    exact ⟨j, by rw [decode, if_pos hz, hopc, ht, hj], hrow⟩
  · rintro ⟨j, hj, hrow⟩
    obtain ⟨hz, hopc, ht, hb, -⟩ := fields_of_decode hj
    rw [← hrow]
    exact (j.matches_row_iff w).mpr ⟨hopc.symm, ht.symm, hz, fun h => hb.symm.trans (operandB_of_oneOperand h)⟩

/-- A command of the mnemonic of a row is a command of the row. -/
theorem Instr.mnemonic_eq_iff_row_eq {i j : Instr} : j.mnemonic = i.mnemonic ↔ j.row = i.row :=
  ⟨row_eq_of_mnemonic_eq j.row_mem i.row_mem, congrArg OpcodeRow.mnemonic⟩

/-- Settles O23: a word that matches a row decodes to a command of the row, and to one command only. -/
theorem tableRowsMatchTheirCommandsOnly : Obligations.TableRowsMatchTheirCommandsOnly := by
  refine ⟨fun w row hrow => ?_, fun w row row' hrow hrow' h h' => ?_⟩
  · obtain ⟨i, rfl⟩ := exists_row_eq_of_mem hrow
    simp only [i.matches_row_iff_decode, ← Instr.mnemonic_eq_iff_row_eq]
    rfl
  · obtain ⟨i, rfl⟩ := exists_row_eq_of_mem hrow
    obtain ⟨i', rfl⟩ := exists_row_eq_of_mem hrow'
    obtain ⟨j, hj, hji⟩ := (i.matches_row_iff_decode w).mp h
    obtain ⟨j', hj', hji'⟩ := (i'.matches_row_iff_decode w).mp h'
    obtain rfl : j = j' := Except.ok.inj (hj.symm.trans hj')
    exact hji.symm.trans hji'

end Sys2Proof
end

section
/-! The number of legal words (30_encoding.md R76): one operand byte or two, after the fixed fields of the command. -/

namespace Sys2Proof

/-- All operand values. -/
def bytes : List Byte := List.ofFn BitVec.ofFin

theorem mem_bytes (b : Byte) : b ∈ bytes := List.mem_ofFn.mpr ⟨b.toFin, rfl⟩

theorem length_bytes : bytes.length = 256 := List.length_ofFn

theorem nodup_bytes : bytes.Nodup := List.nodup_ofFn.mpr fun _ _ h => congrArg BitVec.toFin h

/-- The opcodes of the one-operand commands (30_encoding.md R71). -/
def oneOperandOpcs : List (BitVec 4) := [0x1, 0x2, 0x3, 0x6]

/-- The opcode and `T` of the two-operand commands (30_encoding.md R71, R72). -/
def twoOperandForms : List (BitVec 4 × Bool) :=
  [(0x4, false), (0x5, false), (0x7, false), (0x7, true), (0x8, false), (0x8, true), (0x9, false), (0x9, true)]

/-- The words of the one-operand commands. -/
def oneOperandWords : List Word := (oneOperandOpcs ×ˢ bytes).map fun c => assembleWord c.1 false 0 c.2

/-- The words of the two-operand commands. -/
def twoOperandWords : List Word :=
  (twoOperandForms ×ˢ (bytes ×ˢ bytes)).map fun c => assembleWord c.1.1 c.1.2 c.2.1 c.2.2

/-- Words assembled from different fields differ. -/
theorem assembleWord_inj {o o' : BitVec 4} {t t' : Bool} {b b' a a' : Byte}
    (h : assembleWord o t b a = assembleWord o' t' b' a') : o = o' ∧ t = t' ∧ b = b' ∧ a = a' := by
  obtain ⟨hopc, ht, -, hb, ha⟩ := fields_assembleWord o t b a
  obtain ⟨hopc', ht', -, hb', ha'⟩ := fields_assembleWord o' t' b' a'
  rw [h] at hopc ht hb ha
  exact ⟨hopc.symm.trans hopc', ht.symm.trans ht', hb.symm.trans hb', ha.symm.trans ha'⟩

theorem nodup_oneOperandWords : oneOperandWords.Nodup := by
  refine ((by decide : oneOperandOpcs.Nodup).product nodup_bytes).map fun c c' h => ?_
  obtain ⟨hopc, -, -, ha⟩ := assembleWord_inj h
  exact Prod.ext hopc ha

theorem nodup_twoOperandWords : twoOperandWords.Nodup := by
  refine ((by decide : twoOperandForms.Nodup).product (nodup_bytes.product nodup_bytes)).map fun c c' h => ?_
  obtain ⟨hopc, ht, hb, ha⟩ := assembleWord_inj h
  exact Prod.ext (Prod.ext hopc ht) (Prod.ext hb ha)

/-- No opcode is shared by a one-operand and a two-operand command. -/
theorem disjoint_operandWords : oneOperandWords.Disjoint twoOperandWords := by
  intro w hone htwo
  obtain ⟨c, hc, rfl⟩ := List.mem_map.mp hone
  obtain ⟨c', hc', h⟩ := List.mem_map.mp htwo
  obtain ⟨hopc, -⟩ := assembleWord_inj h
  have hdisjoint : ∀ form ∈ twoOperandForms, form.1 ∉ oneOperandOpcs := by decide
  exact hdisjoint _ (List.mem_product.mp hc').1 (hopc ▸ (List.mem_product.mp hc).1)

theorem mem_oneOperandWords {o : BitVec 4} (ho : o ∈ oneOperandOpcs) (a : Byte) :
    assembleWord o false 0 a ∈ oneOperandWords :=
  List.mem_map.mpr ⟨(o, a), List.pair_mem_product.mpr ⟨ho, mem_bytes a⟩, rfl⟩

theorem mem_twoOperandWords {o : BitVec 4} {t : Bool} (hform : (o, t) ∈ twoOperandForms) (b a : Byte) :
    assembleWord o t b a ∈ twoOperandWords :=
  List.mem_map.mpr ⟨((o, t), (b, a)),
    List.pair_mem_product.mpr ⟨hform, List.pair_mem_product.mpr ⟨mem_bytes b, mem_bytes a⟩⟩, rfl⟩

/-- The lists leave out no command. -/
theorem encode_mem_operandWords (i : Instr) : encode i ∈ oneOperandWords ++ twoOperandWords := by
  rw [List.mem_append]
  cases i
  case expand | subst | permute | genkeys => exact .inl (mem_oneOperandWords (by simp [Instr.opc, oneOperandOpcs]) _)
  all_goals exact .inr (mem_twoOperandWords (by simp [Instr.opc, Instr.traced, twoOperandForms]) _ _)

/-- The lists hold legal words only. -/
theorem exists_decode_of_mem_operandWords {w : Word} (hw : w ∈ oneOperandWords ++ twoOperandWords) :
    ∃ i, decode w = .ok i := by
  obtain hone | htwo := List.mem_append.mp hw
  · obtain ⟨⟨o, a⟩, hc, rfl⟩ := List.mem_map.mp hone
    have hdecode : ∀ o ∈ oneOperandOpcs, ∃ i, decodeOpc o.toNat false 0 a = .ok i := by
      simp [oneOperandOpcs, decodeOpc, decodeOne]
    rw [decode_assembleWord]
    exact hdecode o (List.pair_mem_product.mp hc).1
  · obtain ⟨⟨form, b, a⟩, hc, rfl⟩ := List.mem_map.mp htwo
    have hdecode : ∀ form ∈ twoOperandForms, ∃ i, decodeOpc form.1.toNat form.2 b a = .ok i := by
      simp [twoOperandForms, decodeOpc, decodeTwo, decodeTraced]
    rw [decode_assembleWord]
    exact hdecode form (List.pair_mem_product.mp hc).1

/-- Settles O24: 4 commands of one operand byte and 8 of two, `4 * 256 + 8 * 65536` words. -/
theorem legalWordCount : Obligations.LegalWordCount := by
  refine ⟨oneOperandWords ++ twoOperandWords,
    nodup_oneOperandWords.append nodup_twoOperandWords disjoint_operandWords, ?_,
    fun w => ⟨exists_decode_of_mem_operandWords, ?_⟩⟩
  · rw [oneOperandWords, twoOperandWords, List.length_append, List.length_map, List.length_map, List.length_product,
      List.length_product, List.length_product, length_bytes]
    rfl
  · rintro ⟨i, hi⟩
    rw [← legalWordIsTheEncodingOfItsCommand w i hi]
    exact encode_mem_operandWords i

end Sys2Proof
end

section
/-! What a command leaves in the register file besides STATUS: contents within their widths (10_state.md R27), and the
trace-only registers 0 unless it is traced (10_state.md R28). -/

namespace Sys2Proof.Machine

/-- Every register is zero above its content width (10_state.md R27). -/
def OutFile.Fits (o : OutFile) : Prop := ∀ reg : OutReg, (o.get reg).toNat < 2 ^ reg.contentWidth

/-- Every trace-only register is 0 (10_state.md R27, last column). -/
def OutFile.NoTrace (o : OutFile) : Prop := ∀ reg : OutReg, reg.traceOnly = true → o.get reg = 0

theorem OutFile.Fits.write {o : OutFile} (h : o.Fits) {reg : OutReg} {v : Byte} (hv : v.toNat < 2 ^ reg.contentWidth) :
    (o.write reg v).Fits := by
  intro other
  rw [OutFile.get_write]
  split
  case isTrue hother => rw [hother]; exact hv
  case isFalse => exact h other

theorem OutFile.NoTrace.write {o : OutFile} (h : o.NoTrace) {reg : OutReg} (hreg : reg.traceOnly = false) (v : Byte) :
    (o.write reg v).NoTrace := by
  rintro other hother
  rw [OutFile.get_write_other]
  · exact h other hother
  · rintro rfl
    exact Bool.false_ne_true (hreg.symm.trans hother)

theorem OutFile.fits_cleared : OutFile.cleared.Fits := by
  intro reg
  rw [OutFile.get_cleared]
  exact Nat.two_pow_pos _

theorem OutFile.noTrace_cleared : OutFile.cleared.NoTrace := fun reg _ => OutFile.get_cleared reg

/-- A vector placed in a register at least as wide stays inside the content (30_encoding.md R82). -/
theorem OutFile.Fits.write_place {o : OutFile} (h : o.Fits) {n : Nat} (v : BitVec n) {reg : OutReg}
    (hn : n ≤ reg.contentWidth) : (o.write reg (place v)).Fits := by
  refine h.write ?_
  calc (place v).toNat = v.toNat % 2 ^ 8 := BitVec.toNat_setWidth ..
    _ ≤ v.toNat := Nat.mod_le ..
    _ < 2 ^ n := v.isLt
    _ ≤ 2 ^ reg.contentWidth := Nat.pow_le_pow_right (by decide) hn

theorem fits_resultOnly {n : Nat} (v : BitVec n) (hn : n ≤ 8) : (resultOnly v).Fits :=
  OutFile.fits_cleared.write_place v hn

theorem noTrace_resultOnly {n : Nat} (v : BitVec n) : (resultOnly v).NoTrace :=
  OutFile.noTrace_cleared.write rfl (place v)

theorem OutFile.Fits.writeKeyRound {o : OutFile} (h : o.Fits) (i : Round) (c : KeyRound) : (writeKeyRound i c o).Fits :=
  ((h.write_place c.kl le_rfl).write_place c.kr le_rfl).write_place c.k le_rfl

theorem OutFile.Fits.writeRoundTrace {o : OutFile} (h : o.Fits) (j : Round) (c : RoundTrace) :
    (writeRoundTrace j c o).Fits :=
  (((((h.write_place c.e le_rfl).write_place c.x le_rfl).write_place c.row le_rfl).write_place c.col le_rfl).write_place
    c.sv le_rfl).write_place c.p le_rfl

theorem OutFile.Fits.writeStepRecord {o : OutFile} (h : o.Fits) (j : Round) (c : StepRecord) :
    (writeStepRecord j c o).Fits :=
  ((h.writeRoundTrace j c.round).write_place c.l le_rfl).write_place c.r le_rfl

theorem fits_writeTrace (key : Byte) (c : StepRecord × StepRecord × StepRecord) : (writeTrace key c).Fits := by
  have hschedule : (writeKeySchedule key OutFile.cleared).Fits :=
    ((OutFile.fits_cleared.writeKeyRound .r1 _).writeKeyRound .r2 _).writeKeyRound .r3 _
  have hrecords := ((hschedule.writeStepRecord .r1 c.1).writeStepRecord .r2 c.2.1).writeStepRecord .r3 c.2.2
  exact hrecords.write (joinBlock c.2.2.halves).isLt

end Sys2Proof.Machine
end

section
/-! Every operation keeps the invariant (10_state.md R21, R27, R28, 60_exceptions.md R186, R189). -/

namespace Sys2Proof.Machine

/-- A state with the cleared register file satisfies the invariant if its ROM does. -/
theorem State.inv_of_cleared {s : State} (hrom : ∀ t, s.rom = some t → hasStatedEntry t = true)
    (hout : s.out = OutFile.cleared) : s.Inv where
  rom := hrom
  status := by
    rw [hout]
    decide
  widths := by
    rw [hout]
    exact OutFile.fits_cleared
  failed := by
    rw [hout]
    exact fun _ reg _ => OutFile.get_cleared reg
  untraced := by
    rw [hout]
    exact fun _ => OutFile.noTrace_cleared

/-- Settles O57: the cleared file beside a table with the stated entry. -/
theorem invariantHoldsAtReset : Obligations.InvariantHoldsAtReset := by
  refine State.inv_of_cleared (fun t ht => ?_) State.reset_out
  cases ht
  decide

/-- Error entry leaves STATUS alone non-zero. -/
theorem State.Inv.takeError {s : State} (h : s.Inv) (e : ErrorKind) : (takeError e s).Inv where
  rom := h.rom
  status := by
    rw [takeError_status]
    exact List.mem_cons_of_mem _ (statusError_mem e)
  widths := OutFile.fits_cleared.write (by cases e <;> decide)
  failed _ reg hreg := (OutFile.get_write_other _ _ hreg).trans (OutFile.get_cleared reg)
  untraced _ := OutFile.noTrace_cleared.write rfl _

/-- Completion sets OK, and TV exactly for a traced command. -/
theorem State.Inv.completeWith {s : State} (h : s.Inv) {traced : Bool} {o : OutFile} (hfits : o.Fits)
    (htrace : traced = false → o.NoTrace) : (completeWith traced o s).Inv where
  rom := h.rom
  status := by
    rw [completeWith_status]
    exact List.mem_cons_of_mem _ (statusDone_mem traced)
  widths := hfits.write (by cases traced <;> decide)
  failed hok := by simp [statusDone] at hok
  untraced htv := by
    rw [completeWith_status, statusDone, statusTv_statusWord] at htv
    exact (htrace htv).write rfl _

/-- The common execution rule keeps the invariant if the outputs of the command fit, and are no trace unless it is traced. -/
theorem runCommand_keeps_inv {s s' : State} {traced : Bool} {outputs : Option (SBox → OutFile)} (hs : s.Inv)
    (hfits : ∀ f ∈ outputs, ∀ t, (f t).Fits) (htrace : traced = false → ∀ f ∈ outputs, ∀ t, (f t).NoTrace)
    (h : runCommand traced outputs s = .next s') : s'.Inv := by
  obtain ⟨t, -, ⟨-, rfl⟩ | ⟨f, hf, rfl⟩⟩ := runCommand_next h
  · exact hs.takeError .invalidWidth
  · exact hs.completeWith (hfits f hf t) fun hplain => htrace hplain f hf t

/-- What holds of the outputs for all operands that fit holds of a command with one width check. -/
theorem outputs_of_map {width : Nat} {x : Option (BitVec width)} {g : BitVec width → SBox → OutFile} {P : OutFile → Prop}
    (h : ∀ u t, P (g u t)) : ∀ f ∈ x.map g, ∀ t, P (f t) := by
  intro f hf t
  obtain ⟨u, -, rfl⟩ := Option.mem_map.mp hf
  exact h u t

/-- What holds of the outputs for all operands that fit holds of a command with two width checks. -/
theorem outputs_of_bind {width width' : Nat} {x : Option (BitVec width)} {y : Option (BitVec width')}
    {g : BitVec width → BitVec width' → SBox → OutFile} {P : OutFile → Prop} (h : ∀ u v t, P (g u v t)) :
    ∀ f ∈ x.bind fun u => y.map (g u), ∀ t, P (f t) := by
  intro f hf
  obtain ⟨u, -, hu⟩ := Option.mem_bind_iff.mp hf
  exact outputs_of_map (h u) f hu

/-- A command with one width check and a result in RES keeps the invariant. -/
theorem oneChecked_keeps_inv {s s' : State} {width n : Nat} {a : Byte} {g : BitVec width → SBox → BitVec n} (hn : n ≤ 8)
    (hs : s.Inv) (h : runCommand false ((acceptWidth width a).map fun u t => resultOnly (g u t)) s = .next s') : s'.Inv :=
  runCommand_keeps_inv hs (outputs_of_map fun u t => fits_resultOnly (g u t) hn)
    (fun _ => outputs_of_map fun u t => noTrace_resultOnly (g u t)) h

/-- A command with two width checks and a result in RES keeps the invariant. -/
theorem twoChecked_keeps_inv {s s' : State} {width width' n : Nat} {a b : Byte}
    {g : BitVec width → BitVec width' → SBox → BitVec n} (hn : n ≤ 8) (hs : s.Inv)
    (h : runCommand false ((acceptWidth width a).bind fun u => (acceptWidth width' b).map fun v t =>
      resultOnly (g u v t)) s = .next s') : s'.Inv :=
  runCommand_keeps_inv hs (outputs_of_bind fun u v t => fits_resultOnly (g u v t) hn)
    (fun _ => outputs_of_bind fun u v t => noTrace_resultOnly (g u v t)) h

/-- A traced command on two operands keeps the invariant if its outputs fit. -/
theorem traced_keeps_inv {s s' : State} {width width' : Nat} {a b : Byte}
    {g : BitVec width → BitVec width' → SBox → OutFile} (hfits : ∀ u v t, (g u v t).Fits) (hs : s.Inv)
    (h : runCommand true ((acceptWidth width a).bind fun u => (acceptWidth width' b).map (g u)) s = .next s') : s'.Inv :=
  runCommand_keeps_inv hs (outputs_of_bind hfits) (fun htrue : true = false => nomatch htrue) h

/-- GENKEYS writes the subkeys, which are no trace-only registers. -/
theorem execGenkeys_keeps_inv {s s' : State} {key : Byte} (hs : s.Inv) (h : execGenkeys key s = .next s') : s'.Inv := by
  refine runCommand_keeps_inv hs (outputs_of_map fun u _ => ?_) (fun _ => outputs_of_map fun u _ => ?_) h
  · exact ((OutFile.fits_cleared.write_place _ le_rfl).write_place _ le_rfl).write_place _ le_rfl
  · exact ((OutFile.noTrace_cleared.write rfl _).write rfl _).write rfl _

/-- Every command of the instruction set keeps the invariant. -/
theorem exec_keeps_inv {i : Instr} {s s' : State} (hs : s.Inv) (h : exec i s = .next s') : s'.Inv := by
  cases i with
  | expand | subst | permute | rotl => exact oneChecked_keeps_inv (by decide) hs h
  | compress | fround | encrypt | decrypt => exact twoChecked_keeps_inv (by decide) hs h
  | genkeys => exact execGenkeys_keeps_inv hs h
  | froundT r k =>
    refine traced_keeps_inv (fun u v t => ?_) hs h
    exact (OutFile.fits_cleared.writeRoundTrace .r1 _).write_place _ (by decide)
  | encryptT | decryptT => exact traced_keeps_inv (fun _ key _ => fits_writeTrace key _) hs h

/-- An illegal word executes as the error `IllegalCommand` (30_encoding.md R77). -/
theorem hostCommand_of_error {w : Word} {e : DecodeError} (hw : decode w = .error e) (s : State) :
    hostCommand w s = runIllegal s := by
  unfold hostCommand
  rw [hw]

/-- Every operation keeps the invariant. -/
theorem perform_keeps_inv {ev : Event} {s s' : State} (hs : s.Inv) (h : perform ev s = .next s') : s'.Inv := by
  cases ev with
  | command w =>
    cases hw : decode w with
    | ok i => exact exec_keeps_inv hs ((hostCommand_of_decode hw s).symm.trans h)
    | error e =>
      obtain ⟨-, rfl⟩ := runIllegal_next ((hostCommand_of_error hw s).symm.trans h)
      exact hs.takeError .illegalCommand
  | read n =>
    obtain ⟨-, rfl⟩ := hostRead_next h
    exact ⟨hs.rom, hs.status, hs.widths, hs.failed, hs.untraced⟩
  | reset =>
    cases h
    exact State.inv_of_cleared hs.rom rfl
  | loadRom t =>
    obtain ⟨-, hentry, rfl⟩ := loadRom_next h
    refine ⟨fun u hu => ?_, hs.status, hs.widths, hs.failed, hs.untraced⟩
    obtain rfl : t = u := Option.some.inj hu
    exact hentry
  | writeRegister n v => cases h
  | readPort => cases h

/-- Settles O58: an idle step changes nothing, and every operation that can wait first keeps the invariant. -/
theorem everyStepKeepsTheInvariant : Obligations.EveryStepKeepsTheInvariant := by
  intro s s' hs h
  obtain ⟨-, rfl⟩ | ⟨ev, rest, -, hev⟩ := step_next h
  · exact hs
  · have hrest : (s.setPending rest).Inv := ⟨hs.rom, hs.status, hs.widths, hs.failed, hs.untraced⟩
    exact perform_keeps_inv hrest hev

end Sys2Proof.Machine
end

section
/-! The index maps as a whole: what they keep of their input (41_bit_transforms.md sections 1 and 3, 42_key_schedule.md sections
2 and 3). -/

namespace Sys2Proof.Machine

theorem expand_injective : ∀ a b : Nibble, expand a = expand b → a = b := by decide

theorem permute_fourth_power : ∀ a : Nibble, permute (permute (permute (permute a))) = a := by decide

theorem bit_xor {n : Nat} (v w : BitVec n) (i : Nat) : bit (v ^^^ w) i = bit v i ^^^ bit w i := BitVec.extractLsb'_xor

/-- `Compress` is linear: each output bit is an input bit. -/
theorem compress_xor (a b c d : Nibble) : compress (a ^^^ c) (b ^^^ d) = compress a b ^^^ compress c d := by
  simp only [compress, ← BitVec.xor_append, bit_xor]

/-- Two pairs of halves have the same `Compress` exactly if they agree in the six bits it picks. -/
theorem compress_eq_iff {kl kr kl' kr' : Nibble} : compress kl kr = compress kl' kr' ↔
    ∀ i, i < 8 → i ≠ 4 → i ≠ 6 → (kl ++ kr).getMsbD i = (kl' ++ kr').getMsbD i := by
  obtain ⟨h5, h1, h3, h2, h7, h0⟩ := compressPicksTheBitsOfItsIndexMap kl kr _ rfl
  obtain ⟨h5', h1', h3', h2', h7', h0'⟩ := compressPicksTheBitsOfItsIndexMap kl' kr' _ rfl
  constructor
  · intro h i hi h4 h6
    rw [h] at h5 h1 h3 h2 h7 h0
    interval_cases i
    · exact h0.symm.trans h0'
    · exact h1.symm.trans h1'
    · exact h2.symm.trans h2'
    · exact h3.symm.trans h3'
    · exact absurd rfl h4
    · exact h5.symm.trans h5'
    · exact absurd rfl h6
    · exact h7.symm.trans h7'
  · intro h
    refine BitVec.eq_of_getMsbD_eq fun j hj => ?_
    interval_cases j
    · rw [h5, h5', h 5 (by decide) (by decide) (by decide)]
    · rw [h1, h1', h 1 (by decide) (by decide) (by decide)]
    · rw [h3, h3', h 3 (by decide) (by decide) (by decide)]
    · rw [h2, h2', h 2 (by decide) (by decide) (by decide)]
    · rw [h7, h7', h 7 (by decide) (by decide) (by decide)]
    · rw [h0, h0', h 0 (by decide) (by decide) (by decide)]

/-- Two rotations are one by the sum. -/
theorem rotL_rotL {n : Nat} (v : BitVec n) (s s' : Nat) : rotL (rotL v s) s' = rotL v (s' + s) := by
  refine BitVec.eq_of_getMsbD_eq fun j hj => ?_
  have hmod : (j + s') % n < n := Nat.mod_lt _ (by omega)
  rw [getMsbD_rotL _ _ hj, getMsbD_rotL _ _ hmod, getMsbD_rotL _ _ hj, Nat.mod_add_mod, Nat.add_assoc]

/-- The three rotations of the key schedule are one whole turn of a half. -/
theorem rotL_schedule (v : Nibble) : rotL (rotL (rotL v 1) 2) 1 = v := by
  rw [rotL_rotL, rotL_rotL]
  exact rotL_of_dvd v (dvd_refl 4)

/-- Settles O10: by the six facts about the maps above; the third round ends with the halves of the key. -/
theorem bitMapsLoseNothingButTheDiscardedKeyBits : Obligations.BitMapsLoseNothingButTheDiscardedKeyBits := by
  refine ⟨expand_injective, permute_fourth_power, ⟨0b1000, by decide⟩, compress_xor, fun _ _ _ _ => compress_eq_iff,
    fun key => ?_⟩
  refine ⟨rotL_schedule (highHalf key), rotL_schedule (lowHalf key), ?_⟩
  rw [subkeys, rotL_schedule, rotL_schedule]

/-- The key with the given subkeys: K3 holds every bit of the key but `k[1]` and `k[3]`, and K1 these two
(42_key_schedule.md R122, R124). -/
def keyOfSubkeys (ks : Sextet × Sextet × Sextet) : Byte :=
  bit ks.2.2 0 ++ bit ks.2.2 4 ++ bit ks.2.2 2 ++ bit ks.2.2 3 ++ bit ks.1 1 ++ bit ks.2.2 5 ++ bit ks.1 5 ++ bit ks.2.2 1

theorem keyOfSubkeys_subkeys : ∀ key : Byte, keyOfSubkeys (subkeys key) = key := by decide

/-- Settles O11: the key is read back from its subkeys; the keys with equal subkeys are found among the 256. -/
theorem subkeyTriplesTellKeysApart : Obligations.SubkeyTriplesTellKeysApart :=
  ⟨Function.LeftInverse.injective keyOfSubkeys_subkeys, by decide⟩

end Sys2Proof.Machine
end

section
/-! The flat addresses of the ROM (20_memory.md R51) and its supplied contents (10_state.md R21, R22). -/

namespace Sys2Proof.Machine

theorem toNat_flatAddress : ∀ (row : RowNo) (col : Nibble), (flatAddress row col).toNat = row.toNat * 16 + col.toNat := by
  decide

/-- A flat read at the address of an entry is a read of the entry. -/
theorem romFlat_flatAddress (t : SBox) (row : RowNo) (col : Nibble) :
    romFlat t (flatAddress row col) = romEntry t row col := by
  rw [romFlat, flatAddress, BitVec.extractLsb'_append_eq_left, BitVec.extractLsb'_append_eq_right]

/-- Settles O5: the re-ordered bits are the row and then the column that `subst` reads at. -/
theorem substReadsTheFlatAddress : Obligations.SubstReadsTheFlatAddress := by
  refine ⟨toNat_flatAddress, romFlat_flatAddress, fun t x addr h0 h1 h2 h3 h4 h5 => ?_⟩
  have hrow : sboxRow x = addr.extractLsb' 4 2 := by
    apply sboxRow_eq_of_bits
    · simpa [BitVec.getMsbD_eq_getLsbD] using h0
    · simpa [BitVec.getMsbD_eq_getLsbD] using h1
  have hcol : sboxCol x = addr.extractLsb' 0 4 := by
    refine sboxCol_eq_of_bits fun i hi => ?_
    interval_cases i
    · simpa [BitVec.getMsbD_eq_getLsbD] using h2
    · simpa [BitVec.getMsbD_eq_getLsbD] using h3
    · simpa [BitVec.getMsbD_eq_getLsbD] using h4
    · simpa [BitVec.getMsbD_eq_getLsbD] using h5
  rw [subst, hrow, hcol, romFlat]

/-- Settles O17: the supplied table is a literal, read entry by entry. -/
theorem suppliedSboxHasTheSpecsEntries : Obligations.SuppliedSboxHasTheSpecsEntries := by
  constructor
  · decide
  · decide

end Sys2Proof.Machine
end

section
/-! Encryption and decryption as inverse runs (44_encrypt_decrypt.md sections 3 and 4). -/

namespace Sys2Proof.Machine

/-- A decryption step adds `F` of the same half a second time, which cancels it. -/
@[simp] theorem decStep_encStep (t : SBox) (s : RoundState) (k : Sextet) : decStep t (encStep t s k) k = s := by
  simp only [decStep, encStep, BitVec.xor_assoc, BitVec.xor_self, BitVec.xor_zero]

/-- An encryption round adds `F` of the same half a second time, which cancels it. -/
@[simp] theorem encStep_decStep (t : SBox) (s : RoundState) (k : Sextet) : encStep t (decStep t s k) k = s := by
  simp only [decStep, encStep, BitVec.xor_assoc, BitVec.xor_self, BitVec.xor_zero]

/-- Settles O12: the first part is the definition of the step, the others that `F` added twice cancels. -/
theorem decStepUndoesEncStep : Obligations.DecStepUndoesEncStep :=
  fun t s k => ⟨rfl, decStep_encStep t s k, encStep_decStep t s k⟩

/-- Settles O13: the steps undo the rounds, the last first. -/
theorem decryptUndoesEncryptForEveryTable : Obligations.DecryptUndoesEncryptForEveryTable := by
  intro t p key
  simp only [decrypt, encrypt, splitBlock_joinBlock, decStep_encStep, joinBlock_splitBlock]

/-- The rounds undo the steps, the last first. -/
theorem encrypt_decrypt (t : SBox) (c key : Byte) : encrypt t (decrypt t c key) key = c := by
  simp only [decrypt, encrypt, splitBlock_joinBlock, encStep_decStep, joinBlock_splitBlock]

/-- Settles O14: decryption under the key is the inverse map. -/
theorem encryptionUnderAKeyIsABijection : Obligations.EncryptionUnderAKeyIsABijection := by
  intro t key
  refine ⟨fun c => encrypt_decrypt t c key, Function.bijective_iff_has_inverse.mpr ⟨fun c => decrypt t c key, ?_, ?_⟩⟩
  · exact fun p => decryptUndoesEncryptForEveryTable t p key
  · exact fun c => encrypt_decrypt t c key

/-- Settles O16: step j of the decryption starts from the state round 4-j ended with, so `F` is taken of the same half and the
step leads back to the state before that round. -/
theorem decryptionTraceMirrorsEncryptionTrace : Obligations.DecryptionTraceMirrorsEncryptionTrace := by
  intro t p key e1 e2 e3 d1 d2 d3 he hd
  rw [encRecords_eq_rounds] at he
  rw [decRecords_eq_steps, encrypt] at hd
  simp only [splitBlock_joinBlock, decStep_encStep] at hd
  cases he
  cases hd
  simp only [halves_encRecord, halves_decRecord, decStep_encStep, and_true]
  exact ⟨rfl, rfl, rfl⟩

end Sys2Proof.Machine
end

section
/-! Complemented inputs (95_test_vectors.md V31): the bit maps and rotations commute with the complement, and `F` does not see
it. -/

namespace Sys2Proof.Machine

/-- Complementing both sides leaves an exclusive or as it was. -/
theorem not_xor_not {n : Nat} (v w : BitVec n) : ~~~v ^^^ ~~~w = v ^^^ w := by
  rw [← BitVec.not_xor_left, ← BitVec.not_xor_right, BitVec.not_not]

theorem expand_not : ∀ a : Nibble, expand (~~~a) = ~~~(expand a) := by decide

theorem splitBlock_not : ∀ b : Byte, splitBlock (~~~b) = (~~~(splitBlock b).1, ~~~(splitBlock b).2) := by decide

/-- Every subkey of the complemented key is the complement. -/
theorem subkeys_not : ∀ key : Byte,
    subkeys (~~~key) = (~~~(subkeys key).1, ~~~(subkeys key).2.1, ~~~(subkeys key).2.2) := by decide

/-- `F` takes the exclusive or of the expanded half and the subkey, which the complement does not change. -/
theorem roundF_not (t : SBox) (r : Nibble) (k : Sextet) : roundF t (~~~r) (~~~k) = roundF t r k := by
  rw [roundF, expand_not, not_xor_not, roundF]

theorem encStep_not (t : SBox) (s : RoundState) (k : Sextet) :
    encStep t (~~~s.1, ~~~s.2) (~~~k) = (~~~(encStep t s k).1, ~~~(encStep t s k).2) := by
  simp only [encStep, roundF_not, BitVec.not_xor_left]

theorem decStep_not (t : SBox) (s : RoundState) (k : Sextet) :
    decStep t (~~~s.1, ~~~s.2) (~~~k) = (~~~(decStep t s k).1, ~~~(decStep t s k).2) := by
  simp only [decStep, roundF_not, BitVec.not_xor_left]

theorem joinBlock_not (s : RoundState) : joinBlock (~~~s.1, ~~~s.2) = ~~~(joinBlock s) := BitVec.not_append.symm

/-- Settles O15: every round and every step carries the complement on. -/
theorem complementedInputsGiveComplementedOutputs : Obligations.ComplementedInputsGiveComplementedOutputs := by
  intro t b key
  constructor
  · simp only [encrypt, splitBlock_not, subkeys_not, encStep_not, joinBlock_not]
  · simp only [decrypt, splitBlock_not, subkeys_not, decStep_not, joinBlock_not]

end Sys2Proof.Machine
end

section
/-! Which command a word is, and the command a step runs (20_memory.md R58, 30_encoding.md R79, R81). -/

namespace Sys2Proof.Machine

/-- Settles O18: the decoder reads each literal. -/
theorem sampleWordsDecodeToTheirCommands : Obligations.SampleWordsDecodeToTheirCommands :=
  ⟨rfl, rfl, rfl, rfl, rfl, rfl, rfl, rfl, rfl, rfl, rfl, rfl⟩

/-- Settles O44: the word that waits first is performed, and executes as its command. -/
theorem stepRunsTheDecodedCommand : Obligations.StepRunsTheDecodedCommand := by
  intro s w rest i hpending hw
  rw [step_of_pending hpending]
  exact hostCommand_of_decode hw (s.setPending rest)

/-- A number below 2^32 names the word with its binary digits (30_encoding.md R78). -/
theorem tableWord_of_lt {w : Nat} (h : w < 2 ^ 32) : tableWord 32 w = some (BitVec.ofNat 32 w) := by
  rw [tableWord, Nat.mod_eq_of_lt h]
  exact if_pos h

/-- Settles O45: the word is put first, so the step takes it and leaves the operations that waited. -/
theorem fetchWordIsTheNextCommand : Obligations.FetchWordIsTheNextCommand := by
  intro s w i hlt hw
  constructor
  · have hfetch : s.withFetchWord 32 w = offerFirst (.command (BitVec.ofNat 32 w)) s := by
      rw [State.withFetchWord, tableWord_of_lt hlt]
    rw [hfetch]
    exact stepRunsTheDecodedCommand _ _ s.pending i rfl hw
  · rw [decodeTableWord, tableWord_of_lt hlt]
    exact congrArg Except.toOption hw

end Sys2Proof.Machine
end

section
/-! A command word as a function of the table (10_state.md R33, 70_reset_and_hazards.md R216). -/

namespace Sys2Proof.Machine

/-- A command word answers in every state whose ROM holds a table, with a register file that depends on the word and the table
only. -/
theorem hostCommand_loaded (w : Word) :
    ∃ file : SBox → OutFile, ∀ (s : State) (t : SBox), s.rom = some t → hostCommand w s = .next (s.setOut (file t)) := by
  cases hw : decode w with
  | error e => exact ⟨_, fun s t hrom => (hostCommand_of_error hw s).trans (runIllegal_loaded hrom)⟩
  | ok i =>
    obtain ⟨outputs, hexec, -⟩ := exec_eq_runCommand i
    exact ⟨_, fun s t hrom =>
      (hostCommand_of_decode hw s).trans ((hexec s).trans (runCommand_loaded hrom i.traced outputs))⟩

/-- Settles O46: with a table the file is a function of the table, without one both states refuse the word. -/
theorem commandDependsOnItsWordAndTheSboxOnly : Obligations.CommandDependsOnItsWordAndTheSboxOnly := by
  refine ⟨fun w s s' hrom => ?_, hostCommand_setOut, fun _ _ _ => rfl⟩
  obtain ⟨file, hfile⟩ := hostCommand_loaded w
  cases hs : s.rom with
  | none => rw [hostCommand_unloaded hs, hostCommand_unloaded (hrom.symm.trans hs)]
  | some t =>
    rw [hfile s t hs, hfile s' t (hrom.symm.trans hs)]
    rfl

/-- Settles O47: a read adds a reply only; a command changes the register file only, which it does not read. -/
theorem readsChangeNothingAndCommandsAreIdempotent : Obligations.ReadsChangeNothingAndCommandsAreIdempotent := by
  refine ⟨fun n s hn => ⟨hostRead_of_lt hn s, rfl, rfl⟩, fun w s s' h => ?_⟩
  calc hostCommand w s' = hostCommand w (s.setOut s'.out) := by rw [← hostCommand_frame h]
    _ = hostCommand w s := hostCommand_setOut w s s'.out
    _ = .next s' := h

/-- Settles O49: the word answers, and after an answer OK or ERR is set. -/
theorem everyCommandCompletesOnceTheRomIsLoaded : Obligations.EveryCommandCompletesOnceTheRomIsLoaded := by
  intro w s t hrom
  obtain ⟨file, hfile⟩ := hostCommand_loaded w
  exact ⟨file t, hfile s t hrom, hostCommand_status_ne_zero (hfile s t hrom)⟩

/-- Settles O51: the loading looks at the ROM first, then at the stated entry of the table. -/
theorem inputsOutsideTheSpecAreRefused : Obligations.InputsOutsideTheSpecAreRefused := by
  refine ⟨fun n s hn => if_neg (Nat.not_lt.mpr hn), fun _ _ _ => rfl, fun _ => rfl, fun t s => ⟨?_, ?_, ?_⟩⟩
  · intro hrom hentry
    simp [perform, loadRom, hrom, hasStatedEntry, hentry]
  · intro hrom hentry
    simp [perform, loadRom, hrom, hasStatedEntry, hentry]
  · intro hrom
    obtain ⟨u, hu⟩ := Option.ne_none_iff_exists'.mp hrom
    simp [perform, loadRom, hu]

end Sys2Proof.Machine
end

section
/-! Results as the host reads them (41_bit_transforms.md R103, 44_encrypt_decrypt.md R157). -/

namespace Sys2Proof.Machine

/-- Settles O38: 0x25 addresses row 3, column 2, where a table that satisfies the invariant has the stated entry. -/
theorem substOfTheStatedEntryIsEight : Obligations.SubstOfTheStatedEntryIsEight := by
  intro s t hs hrom
  have hentry : romEntry t 3#2 2#4 = 0x8#4 := beq_iff_eq.mp (hs.rom t hrom)
  have hsubst : subst t 0x25#6 = 0x8#4 := hentry
  obtain ⟨hcompletes, -⟩ := substCommandWritesItsResult
  have hshows : NextShowing (exec (.subst 0x25) s) s [(.status, 0x01), (.res, (subst t 0x25#6).setWidth 8)] :=
    hcompletes 0x25 (by decide) s t hrom
  rw [hsubst] at hshows
  exact hshows

/-- A command on a block and a key answers, and RES then reads its result. -/
theorem exec_block_res {i : Instr} {b key : Byte} (f : SBox → Byte → Byte → Byte)
    (hexec : ∀ s, exec i s = runCommand false
      ((acceptWidth 8 b).bind fun u => (acceptWidth 8 key).map fun v t => resultOnly (f t u v)) s)
    {s : State} {t : SBox} (hrom : s.rom = some t) :
    ∃ o : OutFile, exec i s = .next (s.setOut o) ∧ o.readNumber 0x01 = f t b key := by
  obtain ⟨o, ho, hshows⟩ := completesShowing_block f hexec s t hrom
  exact ⟨o, ho, hshows 0x01⟩

/-- Settles O56: RES reads the ciphertext, then what decryption makes of it, with the ROM the same for both commands. -/
theorem encryptThenDecryptReturnsThePlaintext : Obligations.EncryptThenDecryptReturnsThePlaintext := by
  intro s t p key hrom
  obtain ⟨o, ho, hcipher⟩ := exec_block_res (i := .encrypt p key) encrypt (fun _ => rfl) hrom
  obtain ⟨o', ho', hplain⟩ :=
    exec_block_res (i := .decrypt (encrypt t p key) key) (s := s.setOut o) decrypt (fun _ => rfl) hrom
  refine ⟨s.setOut o, (s.setOut o).setOut o', ho, ?_, hplain.trans (decryptUndoesEncryptForEveryTable t p key)⟩
  rw [State.setOut_out, hcipher]
  exact ho'

end Sys2Proof.Machine
end
